-- ==== Sys2Proof/Word.lean ====
section
/-! DEFINITION. The word types of the machine (spec/00_scope.md R9, spec/10_state.md R21, R24, R27): every register and
memory value is unsigned; register and key numbers are indices 0 to 15, time is a natural number (R11). -/
namespace Sys2Proof

/-- A register, a timer, a byte of memory or the immediate kk: 8 bits, unsigned. -/
abbrev Byte := BitVec 8

/-- An opcode, `I`, `pc` or a call-stack entry: 16 bits, unsigned. -/
abbrev Word := BitVec 16

/-- The number of a general register, V0 to VF (R21). -/
abbrev RegIdx := Fin 16

/-- A logical key value, 0 to 15 (spec/45_keyboard_timers.md R220). -/
abbrev Key := Fin 16

/-- Ticks of the environment clock (R11). -/
abbrev Time := Nat

end Sys2Proof
end

