-- ==== Sys2Proof/Config.lean ====
section
/-! DEFINITION. What is fixed for one machine: the parameters of spec/00_scope.md R7 and R8, the default font table, and the
one free value (the random byte). -/
namespace Sys2Proof.Config

/-- MEM_SIZE: addresses 0x000 to 0xFFF name a byte (R7, spec/20_memory.md R60). -/
def memSize : Nat := 4096

/-- LOAD_BASE, where `load` puts the program's first byte (R7). -/
def loadBase : Nat := 0x200

/-- The value of `pc` at reset (R45, the spec's decision D1). -/
def entryPoint : Word := 0x0200

/-- DISP_W, the columns of the display (R7). -/
def dispW : Nat := 64

/-- DISP_H, the rows of the display (R7). -/
def dispH : Nat := 32

/-- GLYPH_BYTES: the glyph of digit d starts at address 5 * d (R7, R41). -/
def glyphBytes : Nat := 5

/-- The default glyphs of digits 0 to 7, top row first (spec/10_state.md R41). PRESUMED: general knowledge, log 6. -/
def glyphsLow : List (List Byte) :=
  [[0xF0, 0x90, 0x90, 0x90, 0xF0], [0x20, 0x60, 0x20, 0x20, 0x70],
   [0xF0, 0x10, 0xF0, 0x80, 0xF0], [0xF0, 0x10, 0xF0, 0x10, 0xF0],
   [0x90, 0x90, 0xF0, 0x10, 0x10], [0xF0, 0x80, 0xF0, 0x10, 0xF0],
   [0xF0, 0x80, 0xF0, 0x90, 0xF0], [0xF0, 0x10, 0x20, 0x40, 0x40]]

/-- The default glyphs of digits 8 to F (R41). PRESUMED: general knowledge, log 6. -/
def glyphsHigh : List (List Byte) :=
  [[0xF0, 0x90, 0xF0, 0x90, 0xF0], [0xF0, 0x90, 0xF0, 0x10, 0xF0],
   [0xF0, 0x90, 0xF0, 0x90, 0x90], [0xE0, 0x90, 0xE0, 0x90, 0xE0],
   [0xF0, 0x80, 0x80, 0x80, 0xF0], [0xE0, 0x90, 0x90, 0x90, 0xE0],
   [0xF0, 0x80, 0xF0, 0x80, 0xF0], [0xF0, 0x80, 0xF0, 0x80, 0x80]]

/-- What the parameter FONT is: 80 bytes, 16 glyphs of 5 (R8(b), R41). -/
abbrev Font := Vector Byte 80

/-- The default of FONT, the glyph of digit d at bytes 5 * d to 5 * d + 4 (R41). PRESUMED, log 6. -/
def defaultFont : Font := ⟨(glyphsLow ++ glyphsHigh).flatten.toArray, by decide⟩

/-- The random byte of the k-th draw, where no byte has been supplied (spec/42_alu.md R166: "a free draw"). FREE VALUE,
log 4: it has no body, so nothing can be proved of it but its type. -/
opaque freeByte : Nat → Byte

/-- The open parameters of R8 that the model takes as arguments: the machine reads them and never writes them, so a
statement over all states holds for all of them (log 5). -/
structure Params where
  /-- FONT, the bytes that reset puts at 0x000 to 0x04F (R8(b), R41, R43). -/
  font : Font
  /-- STEPS_PER_FRAME, N >= 1 (R8(a), D4). -/
  stepsPerFrame : Nat
  /-- HELD_WINDOW, the clock ticks in 100 ms (R7, R8(d)). -/
  heldWindow : Nat
deriving DecidableEq, Repr

/-- The spec's default FONT (D3; PRESUMED, log 6) and N = 11 (D4), and one tick of the clock to a millisecond (DESIGN
CHOICE, log 5). -/
def defaultParams : Params where
  font := defaultFont
  stepsPerFrame := 11
  heldWindow := 100

end Sys2Proof.Config
end

