-- ==== Sys2Proof/Syntax.lean ====
section
/-! DEFINITION. The 35 instructions of spec/opcode_table.json (spec/30_encoding.md R85), one constructor per row in the
table's order, with the operands of the row's format (R82, R83): `nnn` 12 bits, `kk` 8 bits, `n` 4 bits, `x` and `y`
register numbers. -/
namespace Sys2Proof

inductive Instr where
  /-- `00E0` CLS (R204). -/
  | cls
  /-- `00EE` RET (R131). -/
  | ret
  /-- `0nnn` SYS nnn, every 0nnn but 00E0 and 00EE (R132). -/
  | sys (nnn : BitVec 12)
  /-- `1nnn` JP nnn (R133). -/
  | jp (nnn : BitVec 12)
  /-- `2nnn` CALL nnn (R134). -/
  | call (nnn : BitVec 12)
  /-- `3xkk` SE Vx, kk (R135). -/
  | seImm (x : RegIdx) (kk : Byte)
  /-- `4xkk` SNE Vx, kk (R136). -/
  | sneImm (x : RegIdx) (kk : Byte)
  /-- `5xy0` SE Vx, Vy (R137). -/
  | seReg (x y : RegIdx)
  /-- `6xkk` LD Vx, kk (R153). -/
  | ldImm (x : RegIdx) (kk : Byte)
  /-- `7xkk` ADD Vx, kk (R154). -/
  | addImm (x : RegIdx) (kk : Byte)
  /-- `8xy0` LD Vx, Vy (R155). -/
  | ldReg (x y : RegIdx)
  /-- `8xy1` OR Vx, Vy (R156). -/
  | orReg (x y : RegIdx)
  /-- `8xy2` AND Vx, Vy (R157). -/
  | andReg (x y : RegIdx)
  /-- `8xy3` XOR Vx, Vy (R158). -/
  | xorReg (x y : RegIdx)
  /-- `8xy4` ADD Vx, Vy (R159). -/
  | addReg (x y : RegIdx)
  /-- `8xy5` SUB Vx, Vy (R160). -/
  | subReg (x y : RegIdx)
  /-- `8xy6` SHR Vx; y is in the encoding and ignored (R161). -/
  | shr (x y : RegIdx)
  /-- `8xy7` SUBN Vx, Vy (R162). -/
  | subnReg (x y : RegIdx)
  /-- `8xyE` SHL Vx; y is in the encoding and ignored (R163). -/
  | shl (x y : RegIdx)
  /-- `9xy0` SNE Vx, Vy (R138). -/
  | sneReg (x y : RegIdx)
  /-- `Annn` LD I, nnn (R181). -/
  | ldI (nnn : BitVec 12)
  /-- `Bnnn` JP V0, nnn (R139). -/
  | jpV0 (nnn : BitVec 12)
  /-- `Cxkk` RND Vx, kk (R166). -/
  | rnd (x : RegIdx) (kk : Byte)
  /-- `Dxyn` DRW Vx, Vy, n (R205). -/
  | drw (x y : RegIdx) (n : BitVec 4)
  /-- `Ex9E` SKP Vx (R227). -/
  | skp (x : RegIdx)
  /-- `ExA1` SKNP Vx (R228). -/
  | sknp (x : RegIdx)
  /-- `Fx07` LD Vx, DT (R232). -/
  | ldVxDT (x : RegIdx)
  /-- `Fx0A` LD Vx, K (R229). -/
  | ldVxK (x : RegIdx)
  /-- `Fx15` LD DT, Vx (R233). -/
  | ldDTVx (x : RegIdx)
  /-- `Fx18` LD ST, Vx (R234). -/
  | ldSTVx (x : RegIdx)
  /-- `Fx1E` ADD I, Vx (R182). -/
  | addI (x : RegIdx)
  /-- `Fx29` LD F, Vx (R183). -/
  | ldF (x : RegIdx)
  /-- `Fx33` LD B, Vx (R184). -/
  | ldB (x : RegIdx)
  /-- `Fx55` LD [I], Vx (R185). -/
  | storeRegs (x : RegIdx)
  /-- `Fx65` LD Vx, [I] (R186). -/
  | loadRegs (x : RegIdx)
deriving DecidableEq, Repr

end Sys2Proof
end

