-- ==== Sys2Proof/Machine/State.lean ====
section
/-! DEFINITION. The state of the machine as plain data (spec/10_state.md R20 to R46): the spec's sixteen pieces of state under
the spec's own names, and the model's own `params`, `env` and `out`, which R43 and R118 call parameters, environment and
output, and `loaded`, the mark of the LOAD port. `State.reset` is R45. -/
namespace Sys2Proof.Machine

/-- The causes of a fault (spec/60_exceptions.md R263). -/
inductive FaultCause where
  /-- Code 1: an illegal word was executed (R264). -/
  | unknownOpcode
  /-- Code 2: `00EE` with an empty call stack (R265). -/
  | stackEmpty
  /-- Code 3: an access to a byte address of 4096 or more (R266). -/
  | memBounds
  /-- Code 4: `Ex9E` or `ExA1` with a key number above 15 (R267). -/
  | keyIndex
  /-- Code 5: the key event port is disconnected (R268). -/
  | inputChannelLost
deriving DecidableEq, Repr

/-- The run state `rs` (R40): FAULT latches the cause and the information word of R263. -/
inductive RunState where
  | run
  | quit
  | fault (cause : FaultCause) (info : Nat)
deriving DecidableEq, Repr

/-- The three control states the source names within RUN (spec/40_execution_cycle.md R109). -/
inductive ControlState where
  | running
  | paused
  | waitingForKey
deriving DecidableEq, Repr

/-- A key event of the queue, with the producer's capture time (R37, spec/45_keyboard_timers.md R221). -/
inductive Event where
  | char (k : Key) (ts : Time)
  | toggle (ts : Time)
  | quit (ts : Time)
deriving DecidableEq, Repr

/-- The wait request of an unresolved `Fx0A` (R38). -/
structure WaitRequest where
  dest : RegIdx
  validAfter : Time
deriving DecidableEq, Repr

/-- Memory: (address, byte) pairs, addresses strictly rising, none equal to the reset contents of its address
(`Memory.wf`); an address with no entry holds its reset contents, which the parameter FONT decides (`Memory.background`,
log 10). -/
abbrev Memory := List Host.Cell

/-- The display buffer: 32 rows of 64 pixels, `Pix(x, y)` the x-th of row y, on = true (R34). -/
abbrev Display := Vector (Vector Bool 64) 32

/-- What the environment does before one step (MODEL's own, log 3): the clock advances, the producer appends events to the
tail of `Q`, and the event port is disconnected or not (R11, R100, R268). -/
structure StepInput where
  elapsed : Time
  arrivals : List Event
  disconnected : Bool
deriving DecidableEq, Repr

/-- The environment of the step relation (R43; MODEL's own, log 3, log 4, log 18). -/
structure Environment where
  /-- The clock sample of the latest step (R11). -/
  now : Time
  /-- What the environment does before each coming step, the next first. -/
  inputs : List StepInput
  /-- Whether the event port is disconnected (R268). -/
  disconnected : Bool
  /-- The random bytes supplied for the coming draws, the next first (R166). -/
  random : List Byte
  /-- How many draws have been made: the index of the free value of a draw with no supplied byte. -/
  draws : Nat
deriving DecidableEq, Repr

/-- What the renderer is handed at a frame end (R118). -/
inductive View where
  /-- The key-map select; the layout itself is out of scope (spec/00_scope.md R5). -/
  | keymap
  /-- A snapshot of the display buffer. -/
  | picture (pix : Display)
deriving DecidableEq, Repr

/-- The record `Present(frame_index, …)` of R118. -/
structure Presentation where
  frame : Nat
  view : View
deriving DecidableEq, Repr

/-- The machine's display output (R118; MODEL's own, log 8). -/
structure Output where
  /-- How many presentations have been made. -/
  frames : Nat
  /-- The latest of them. -/
  shown : Option Presentation
deriving DecidableEq, Repr

structure State where
  /-- General registers V0 to VF (R21); VF is the only flag (R22). -/
  V : Vector Byte 16
  /-- Index register, not masked on write (R27). -/
  I : Word
  /-- Address of the next instruction (R24). -/
  pc : Word
  /-- Call stack, the last pushed entry first, unbounded (R32, R33). -/
  stack : List Word
  /-- The 4096 bytes (R28). -/
  mem : Memory
  /-- Delay timer (R30). -/
  DT : Byte
  /-- Sound timer (R31). -/
  ST : Byte
  /-- Display buffer (R34). -/
  Pix : Display
  /-- Per key, the timestamp of its last recorded press (R35). -/
  lastPress : Vector (Option Time) 16
  /-- The keyboard's quit flag (R36). -/
  kbQuit : Bool
  /-- The keyboard's pause-toggle flag (R36). -/
  kbToggle : Bool
  /-- Key-event queue, the head first (R37). -/
  Q : List Event
  /-- Wait request (R38). -/
  wait : Option WaitRequest
  /-- The engine's paused mark (R39). -/
  paused : Bool
  /-- Run state with its fault latch (R40). -/
  rs : RunState
  /-- Steps done in the current frame (R42). -/
  phase : Nat
  /-- MODEL's own: whether a program has been loaded; the LOAD port writes it and nothing else does
  (spec/70_reset_and_hazards.md R304, log 11). -/
  loaded : Bool
  /-- MODEL's own: the parameters FONT, N and HELD_WINDOW, never written (spec/00_scope.md R8, R43, log 5). -/
  params : Config.Params
  /-- MODEL's own: the environment of the step relation (R43). -/
  env : Environment
  /-- MODEL's own: the display output (R118). -/
  out : Output
deriving DecidableEq, Repr

/-- The machine stops with a fault. -/
inductive Fault where
  /-- Raised by `step` alone, in a state whose `rs` is FAULT: the fault was taken by an earlier step, which latched it, and
  there is no step from there (R102, R261). Safe: the spec has no further behaviour either (log 1). -/
  | stopped (cause : FaultCause) (info : Nat)
deriving DecidableEq, Repr

/-- The machine has no meaning to give. -/
inductive Refusal where
  /-- Raised by an arm of `exec` whose instruction has no meaning yet. Safe. No arm of this model does. -/
  | notModelled (mnemonic : String)
  /-- Raised by `step` alone, in a state whose `rs` is QUIT: the session has ended and there is no step (R102, R105).
  Safe (log 2). -/
  | sessionEnded
  /-- Raised by `loadProgram`: the program does not fit above 0x200, the BoundsError of spec/70_reset_and_hazards.md R306.
  Safe. -/
  | loadTooLarge
  /-- Raised by `loadProgram` outside the reset state, hence by every second load (R304, the spec's decision D26). Safe. -/
  | loadOutsideReset
deriving DecidableEq, Repr

/-- What an instruction, or a step, answers. -/
abbrev Result := Host.Outcome State Fault Refusal

/-- R45, with the default parameters: FONT at 0x000 to 0x04F and zero elsewhere is what memory holds with nothing listed. With
other parameters the reset state is `{ State.reset with params := p }`. -/
def State.reset : State where
  V := Vector.replicate 16 0
  I := 0
  pc := Config.entryPoint
  stack := []
  mem := []
  DT := 0
  ST := 0
  Pix := Vector.replicate 32 (Vector.replicate 64 false)
  lastPress := Vector.replicate 16 none
  kbQuit := false
  kbToggle := false
  Q := []
  wait := none
  paused := false
  rs := .run
  phase := 0
  loaded := false
  params := Config.defaultParams
  env := { now := 0, inputs := [], disconnected := false, random := [], draws := 0 }
  out := { frames := 0, shown := none }

end Sys2Proof.Machine
end

