-- ==== Sys2Proof/Machine/Ops.lean ====
section
/-! DEFINITION. The named operations over memory, registers, stack and flags of control, and raising a fault (spec/10_state.md,
spec/20_memory.md, spec/60_exceptions.md). Everything an instruction does to the state goes through these. -/
namespace Sys2Proof.Machine

/-! ## Memory (spec/20_memory.md) -/

/-- What an address that is not listed holds: its reset contents, FONT below 0x050 and zero above (R41, R45). -/
def Memory.background (font : Config.Font) (a : Nat) : Byte := if h : a < 80 then font[a] else 0

/-- The byte at an address, in a machine with this FONT. -/
def Memory.read : Memory → Config.Font → Nat → Byte
  | [], font, a => Memory.background font a
  | (k, v) :: m, font, a => if a = k then v else Memory.read m font a

/-- Put a byte before the entries that follow it, or leave it out where it is what an unlisted address holds. -/
def Memory.consCell (m : Memory) (font : Config.Font) (a : Nat) (b : Byte) : Memory :=
  if b = Memory.background font a then m else (a, b) :: m

/-- Store a byte, keeping the canonical form. -/
def Memory.write : Memory → Config.Font → Nat → Byte → Memory
  | [], font, a, b => Memory.consCell [] font a b
  | (k, v) :: m, font, a, b =>
    if a < k then Memory.consCell ((k, v) :: m) font a b
    else if a = k then Memory.consCell m font a b
    else (k, v) :: Memory.write m font a b

/-- Every entry lies at or above `lo`, below 4096, in strictly rising order, and differs from the reset contents. -/
def Memory.wfFrom (font : Config.Font) (lo : Nat) : Memory → Bool
  | [] => true
  | (k, v) :: m =>
    decide (lo ≤ k) && decide (k < Config.memSize) && decide (v ≠ Memory.background font k) &&
      Memory.wfFrom font (k + 1) m

/-- The canonical form of memory in a machine with this FONT. -/
def Memory.wf (m : Memory) (font : Config.Font) : Bool := Memory.wfFrom font 0 m

/-- `mem[a]` (R28). -/
def State.byteAt (s : State) (a : Nat) : Byte := s.mem.read s.params.font a

/-- The state's memory is in its canonical form. -/
def State.memWf (s : State) : Bool := s.mem.wf s.params.font

/-! ## Registers, index register, program counter, stack -/

/-- `V[i]` (R10, R21). -/
def State.reg (s : State) (i : RegIdx) : Byte := s.V[i.val]'i.isLt

/-- `V[i] <- b`. -/
def State.setReg (s : State) (i : RegIdx) (b : Byte) : State := { s with V := s.V.set i.val b i.isLt }

/-- The number of VF, the flag register (R22). -/
def vf : RegIdx := 15

/-- `VF <- b`. -/
def State.setVF (s : State) (b : Byte) : State := s.setReg vf b

/-- `I <- w` (R27: all 16 bits). -/
def State.setI (s : State) (w : Word) : State := { s with I := w }

/-- `pc <- target`. -/
def State.setPc (s : State) (target : Word) : State := { s with pc := target }

/-- The advance by one instruction, 2 bytes: before every instruction, and once more by a skip (R24, spec/41_flow.md R140). -/
def State.advancePc (s : State) : State := s.setPc (s.pc + 2)

/-- `push(w)` (R32). -/
def State.push (s : State) (w : Word) : State := { s with stack := w :: s.stack }

/-- The stack after a pop. -/
def State.setStack (s : State) (st : List Word) : State := { s with stack := st }

/-- `mem[a] <- b`, for an address in range (R63). -/
def State.storeByte (s : State) (a : Nat) (b : Byte) : State := { s with mem := s.mem.write s.params.font a b }

/-- Store bytes at ascending addresses, all in range. -/
def State.storeAll (s : State) (a : Nat) : List Byte → State
  | [] => s
  | b :: bs => (s.storeByte a b).storeAll (a + 1) bs

/-- `DT <- b` (R30). -/
def State.setDT (s : State) (b : Byte) : State := { s with DT := b }

/-- `ST <- b` (R31). -/
def State.setST (s : State) (b : Byte) : State := { s with ST := b }

/-- The display buffer after a display operation (R34). -/
def State.setPix (s : State) (d : Display) : State := { s with Pix := d }

/-- `wait <- w` (R38). -/
def State.setWait (s : State) (w : Option WaitRequest) : State := { s with wait := w }

/-! ## Random draws (spec/42_alu.md R166) -/

/-- `draw() : 8 bits`: the next supplied byte, or the free value of this draw (log 4). -/
def State.drawByte (s : State) : Byte :=
  match s.env.random with
  | b :: _ => b
  | [] => Config.freeByte s.env.draws

/-- One draw has been made: one byte is consumed per executed `Cxkk`. -/
def State.spendDraw (s : State) : State :=
  { s with env := { s.env with random := s.env.random.tail, draws := s.env.draws + 1 } }

/-! ## Raising a fault (spec/60_exceptions.md R261 to R263) -/

/-- `rs <- FAULT(cause, info)`. -/
def State.latchFault (s : State) (cause : FaultCause) (info : Nat) : State := { s with rs := .fault cause info }

/-- `raise Fault(cause, info)`: the step stops here with what has been written so far, and the fault is latched (R261). There
is no handler and no return from a fault (R273). -/
def raiseFault (cause : FaultCause) (info : Nat) (s : State) : Result := .next (s.latchFault cause info)

/-- The code of a cause (R263). -/
def FaultCause.code : FaultCause → Nat
  | .unknownOpcode => 1
  | .stackEmpty => 2
  | .memBounds => 3
  | .keyIndex => 4
  | .inputChannelLost => 5

/-! ## Bounded accesses (R64): ascending, up to the first byte address of 4096 or more -/

/-- `MemRead(a, n)`: the n bytes at `a`, or the first address out of range. -/
def readBytes (s : State) (a : Nat) : Nat → Except Nat (List Byte)
  | 0 => .ok []
  | n + 1 =>
    if a < Config.memSize then
      match readBytes s (a + 1) n with
      | .ok bs => .ok (s.byteAt a :: bs)
      | .error e => .error e
    else .error a

/-- `MemWrite` of one byte after another at ascending addresses; the bytes before the first address out of range stay
written. -/
def storeBytes (s : State) (a : Nat) : List Byte → Result
  | [] => .next s
  | b :: bs => if a < Config.memSize then storeBytes (s.storeByte a b) (a + 1) bs else raiseFault .memBounds a s

/-- `V[k] <- MemRead(a, 1)` for one register after another at ascending addresses; the registers before the first address out
of range stay loaded. -/
def loadBytes (s : State) (a : Nat) : List RegIdx → Result
  | [] => .next s
  | k :: ks => if a < Config.memSize then loadBytes (s.setReg k (s.byteAt a)) (a + 1) ks else raiseFault .memBounds a s

/-! ## Control state -/

/-- R109: Paused when `paused` is set, with or without a wait request; else WaitingForKey with one, Running without. -/
def State.control (s : State) : ControlState :=
  if s.paused then .paused else if s.wait.isSome then .waitingForKey else .running

end Sys2Proof.Machine
end

