-- ==== Sys2Proof/Machine/Load.lean ====
section
/-! DEFINITION. The LOAD port (spec/70_reset_and_hazards.md R304 to R306). -/
namespace Sys2Proof.Machine

/-- The reset state of R45, whatever the parameters and the environment are; no program has been loaded in it. -/
def State.isReset (s : State) : Bool := decide (s = { State.reset with params := s.params, env := s.env })

/-- `load(p)`: in the reset state only (R304, the spec's decision D26); a program that does not fit changes nothing (R306);
otherwise its bytes go to 0x200 and up and nothing else of the machine changes (R305). The mark `loaded` makes every later
load one outside the reset state, one that follows an empty program among them. -/
def loadProgram (p : List Byte) (s : State) : Result :=
  if s.isReset then
    if p.length + Config.loadBase ≤ Config.memSize then
      .next { s.storeAll Config.loadBase p with loaded := true }
    else .refused .loadTooLarge
  else .refused .loadOutsideReset

end Sys2Proof.Machine
end

