-- ==== Sys2Proof/Decode.lean ====
section
/-! DEFINITION. The decoder (spec/30_encoding.md R80 to R88) and, after it, the encoder, written from the same formats
(R82). Every instruction is one 16-bit word, stored high byte first (spec/20_memory.md R62). -/
namespace Sys2Proof

/-- Why the decoder refuses bytes. -/
inductive DecodeError where
  /-- The word is one of the illegal encodings (R86). -/
  | unknownOpcode (op : Word)
  /-- Fewer than two bytes: no instruction is shorter (R80). -/
  | truncated
deriving DecidableEq, Repr

/-! ## Fields (R81) -/

/-- `t = op[15:12]`, the family. -/
def topNibble (op : Word) : BitVec 4 := op.extractLsb' 12 4

/-- `x = op[11:8]`. -/
def xField (op : Word) : RegIdx := (op.extractLsb' 8 4).toFin

/-- `y = op[7:4]`. -/
def yField (op : Word) : RegIdx := (op.extractLsb' 4 4).toFin

/-- `n = op[3:0]`. -/
def nField (op : Word) : BitVec 4 := op.extractLsb' 0 4

/-- `kk = op[7:0]`. -/
def kkField (op : Word) : Byte := op.extractLsb' 0 8

/-- `nnn = op[11:0]`. -/
def nnnField (op : Word) : BitVec 12 := op.extractLsb' 0 12

/-! ## The opcode map (R84) -/

/-- Family 0: the two exact words first, every other 0nnn is SYS (R84 priorities 1 to 3). -/
def decodeFamily0 (op : Word) : Instr :=
  if op = 0x00E0 then .cls else if op = 0x00EE then .ret else .sys (nnnField op)

/-- Family 8, by the bottom nibble (R84 priority 6). -/
def decodeFamily8 (x y : RegIdx) (n : BitVec 4) : Option Instr :=
  match n.toNat with
  | 0x0 => some (.ldReg x y)
  | 0x1 => some (.orReg x y)
  | 0x2 => some (.andReg x y)
  | 0x3 => some (.xorReg x y)
  | 0x4 => some (.addReg x y)
  | 0x5 => some (.subReg x y)
  | 0x6 => some (.shr x y)
  | 0x7 => some (.subnReg x y)
  | 0xE => some (.shl x y)
  | _ => none

/-- Family E, by the bottom byte (R84 priority 7). -/
def decodeFamilyE (x : RegIdx) (kk : Byte) : Option Instr :=
  if kk = 0x9E then some (.skp x) else if kk = 0xA1 then some (.sknp x) else none

/-- Family F, by the bottom byte (R84 priority 8). -/
def decodeFamilyF (x : RegIdx) (kk : Byte) : Option Instr :=
  if kk = 0x07 then some (.ldVxDT x)
  else if kk = 0x0A then some (.ldVxK x)
  else if kk = 0x15 then some (.ldDTVx x)
  else if kk = 0x18 then some (.ldSTVx x)
  else if kk = 0x1E then some (.addI x)
  else if kk = 0x29 then some (.ldF x)
  else if kk = 0x33 then some (.ldB x)
  else if kk = 0x55 then some (.storeRegs x)
  else if kk = 0x65 then some (.loadRegs x)
  else none

/-- R84: the instruction a word encodes, `none` for an illegal word (R86). Families 5 and 9 are legal only with n = 0
(C1: the table wins). -/
def decodeWord (op : Word) : Option Instr :=
  let x := xField op
  let y := yField op
  let n := nField op
  let kk := kkField op
  let nnn := nnnField op
  match (topNibble op).toNat with
  | 0x0 => some (decodeFamily0 op)
  | 0x1 => some (.jp nnn)
  | 0x2 => some (.call nnn)
  | 0x3 => some (.seImm x kk)
  | 0x4 => some (.sneImm x kk)
  | 0x5 => if n = 0 then some (.seReg x y) else none
  | 0x6 => some (.ldImm x kk)
  | 0x7 => some (.addImm x kk)
  | 0x8 => decodeFamily8 x y n
  | 0x9 => if n = 0 then some (.sneReg x y) else none
  | 0xA => some (.ldI nnn)
  | 0xB => some (.jpV0 nnn)
  | 0xC => some (.rnd x kk)
  | 0xD => some (.drw x y n)
  | 0xE => decodeFamilyE x kk
  | _ => decodeFamilyF x kk

/-- The opcode of two bytes in memory order, the lower address first (R62). -/
def opcodeOf (first second : Byte) : Word := first ++ second

/-- The decoder on any bytes, lowest address first: the instruction and the bytes after it, or why there is none. -/
def decode : List Byte → Except DecodeError (Instr × List Byte)
  | first :: second :: rest =>
    match decodeWord (opcodeOf first second) with
    | some i => .ok (i, rest)
    | none => .error (.unknownOpcode (opcodeOf first second))
  | _ => .error .truncated

/-! ## The encoder (R82) -/

/-- The field of a register number. -/
def regBits (x : RegIdx) : BitVec 4 := BitVec.ofFin (w := 4) x

/-- FMT_NNN: `t / nnn`. -/
def fmtNNN (t : BitVec 4) (nnn : BitVec 12) : Word := t ++ nnn

/-- FMT_XKK, and FMT_X with kk fixed: `t / x / kk`. -/
def fmtXKK (t : BitVec 4) (x : RegIdx) (kk : Byte) : Word := t ++ regBits x ++ kk

/-- FMT_XYN, and FMT_XY with n fixed: `t / x / y / n`. -/
def fmtXYN (t : BitVec 4) (x y : RegIdx) (n : BitVec 4) : Word := t ++ regBits x ++ regBits y ++ n

/-- The word of an instruction. -/
def encode : Instr → Word
  | .cls => 0x00E0
  | .ret => 0x00EE
  | .sys nnn => fmtNNN 0x0 nnn
  | .jp nnn => fmtNNN 0x1 nnn
  | .call nnn => fmtNNN 0x2 nnn
  | .seImm x kk => fmtXKK 0x3 x kk
  | .sneImm x kk => fmtXKK 0x4 x kk
  | .seReg x y => fmtXYN 0x5 x y 0x0
  | .ldImm x kk => fmtXKK 0x6 x kk
  | .addImm x kk => fmtXKK 0x7 x kk
  | .ldReg x y => fmtXYN 0x8 x y 0x0
  | .orReg x y => fmtXYN 0x8 x y 0x1
  | .andReg x y => fmtXYN 0x8 x y 0x2
  | .xorReg x y => fmtXYN 0x8 x y 0x3
  | .addReg x y => fmtXYN 0x8 x y 0x4
  | .subReg x y => fmtXYN 0x8 x y 0x5
  | .shr x y => fmtXYN 0x8 x y 0x6
  | .subnReg x y => fmtXYN 0x8 x y 0x7
  | .shl x y => fmtXYN 0x8 x y 0xE
  | .sneReg x y => fmtXYN 0x9 x y 0x0
  | .ldI nnn => fmtNNN 0xA nnn
  | .jpV0 nnn => fmtNNN 0xB nnn
  | .rnd x kk => fmtXKK 0xC x kk
  | .drw x y n => fmtXYN 0xD x y n
  | .skp x => fmtXKK 0xE x 0x9E
  | .sknp x => fmtXKK 0xE x 0xA1
  | .ldVxDT x => fmtXKK 0xF x 0x07
  | .ldVxK x => fmtXKK 0xF x 0x0A
  | .ldDTVx x => fmtXKK 0xF x 0x15
  | .ldSTVx x => fmtXKK 0xF x 0x18
  | .addI x => fmtXKK 0xF x 0x1E
  | .ldF x => fmtXKK 0xF x 0x29
  | .ldB x => fmtXKK 0xF x 0x33
  | .storeRegs x => fmtXKK 0xF x 0x55
  | .loadRegs x => fmtXKK 0xF x 0x65

/-- The byte at the lower address: bits 15:8 (R62). -/
def highByte (op : Word) : Byte := op.extractLsb' 8 8

/-- The byte at the higher address: bits 7:0 (R62). -/
def lowByte (op : Word) : Byte := op.extractLsb' 0 8

/-- A word as it lies in memory, lowest address first. -/
def wordBytes (op : Word) : List Byte := [highByte op, lowByte op]

/-- An instruction as it lies in memory. -/
def encodeBytes (i : Instr) : List Byte := wordBytes (encode i)

/-! ## The opcode table's rows, and the word the host numbers -/

/-- The `mask` of the instruction's row in spec/opcode_table.json: which bits the row fixes. -/
def rowMask : Instr → Word
  | .cls | .ret => 0xFFFF
  | .sys _ | .jp _ | .call _ | .ldI _ | .jpV0 _ => 0xF000
  | .seImm _ _ | .sneImm _ _ | .ldImm _ _ | .addImm _ _ | .rnd _ _ | .drw _ _ _ => 0xF000
  | .seReg _ _ | .sneReg _ _ | .ldReg _ _ | .orReg _ _ | .andReg _ _ | .xorReg _ _ => 0xF00F
  | .addReg _ _ | .subReg _ _ | .shr _ _ | .subnReg _ _ | .shl _ _ => 0xF00F
  | .skp _ | .sknp _ | .ldVxDT _ | .ldVxK _ | .ldDTVx _ | .ldSTVx _ => 0xF0FF
  | .addI _ | .ldF _ | .ldB _ | .storeRegs _ | .loadRegs _ => 0xF0FF

/-- The `match` of the instruction's row: the values of the fixed bits. -/
def rowMatch : Instr → Word
  | .cls => 0x00E0
  | .ret => 0x00EE
  | .sys _ => 0x0000
  | .jp _ => 0x1000
  | .call _ => 0x2000
  | .seImm _ _ => 0x3000
  | .sneImm _ _ => 0x4000
  | .seReg _ _ => 0x5000
  | .ldImm _ _ => 0x6000
  | .addImm _ _ => 0x7000
  | .ldReg _ _ => 0x8000
  | .orReg _ _ => 0x8001
  | .andReg _ _ => 0x8002
  | .xorReg _ _ => 0x8003
  | .addReg _ _ => 0x8004
  | .subReg _ _ => 0x8005
  | .shr _ _ => 0x8006
  | .subnReg _ _ => 0x8007
  | .shl _ _ => 0x800E
  | .sneReg _ _ => 0x9000
  | .ldI _ => 0xA000
  | .jpV0 _ => 0xB000
  | .rnd _ _ => 0xC000
  | .drw _ _ _ => 0xD000
  | .skp _ => 0xE09E
  | .sknp _ => 0xE0A1
  | .ldVxDT _ => 0xF007
  | .ldVxK _ => 0xF00A
  | .ldDTVx _ => 0xF015
  | .ldSTVx _ => 0xF018
  | .addI _ => 0xF01E
  | .ldF _ => 0xF029
  | .ldB _ => 0xF033
  | .storeRegs _ => 0xF055
  | .loadRegs _ => 0xF065

/-- The one word of an instruction given by its low `nbits` bits, every bit above them 0. -/
def tableWord (nbits w : Nat) : Word := BitVec.ofNat 16 (w % 2 ^ nbits)

/-- The instruction the decoder reads from the bytes of that word, high byte at the lower address. -/
def decodeTableWord (nbits w : Nat) : Option Instr :=
  match decode (wordBytes (tableWord nbits w)) with
  | .ok (i, _) => some i
  | .error _ => none

end Sys2Proof
end

