-- ==== Sys2Proof/Machine/Flags.lean ====
section
/-! DEFINITION. Every value an instruction writes to VF as a flag (spec/42_alu.md R152, spec/44_display.md R208). -/
namespace Sys2Proof.Machine

/-- A flag that is 1 or 0. -/
def flagBit (c : Bool) : Byte := if c then 1 else 0

/-- The 9-bit sum of `8xy4` (R159). -/
def sum9 (a b : Byte) : BitVec 9 := a.setWidth 9 + b.setWidth 9

/-- The carry of `8xy4`: bit 8 of the sum, 1 iff the unsigned sum exceeds 255 (R152, R159). -/
def carryFlag (a b : Byte) : Byte := flagBit ((sum9 a b).getLsbD 8)

/-- The flag of `8xy5` and `8xy7`: 1 iff strictly greater, unsigned (R152, R160, R162). -/
def greaterFlag (a b : Byte) : Byte := flagBit (decide (b.toNat < a.toNat))

/-- The flag of `8xy6`: bit 0 (R161). -/
def lsbFlag (a : Byte) : Byte := a &&& 0x01

/-- The flag of `8xyE`: the masked bit 7, 0x80 or 0x00, not normalised (R163, the spec's decision D9). -/
def msbFlag (a : Byte) : Byte := a &&& 0x80

/-- The flag of `Dxyn`: 1 iff a pixel went from on to off (R208). -/
def collisionFlag (hit : Bool) : Byte := flagBit hit

end Sys2Proof.Machine
end

