-- ==== Sys2Proof/Machine/Operands.lean ====
section
/-! DEFINITION. Every operand form of the instruction set (spec/30_encoding.md R83, spec/43_index_memory.md R180): register
operands are `State.reg`, kk is itself, and the rest are here. -/
namespace Sys2Proof.Machine

/-- `zext_16(nnn)` (R83). -/
def zextAddr (nnn : BitVec 12) : Word := nnn.setWidth 16

/-- `zext_16(V[i])` (R182, R183, R139). -/
def State.regWord (s : State) (i : RegIdx) : Word := (s.reg i).setWidth 16

/-- The register whose content `Bnnn` adds to nnn (R139): always V0. -/
def v0 : RegIdx := 0

/-- The effective address of a data access, `I + k`, with no wrap (R64, R180). -/
def State.dataAddr (s : State) (k : Nat) : Nat := s.I.toNat + k

/-- The registers of the range `V[0] .. V[x]`, ascending and inclusive (R185, R186). -/
def regRange (x : RegIdx) : List RegIdx := (List.finRange 16).take (x.val + 1)

/-- The contents of `V[0] .. V[x]`. -/
def State.regValues (s : State) (x : RegIdx) : List Byte := (regRange x).map s.reg

/-- The row count of `Dxyn` (R83). -/
def rowCount (n : BitVec 4) : Nat := n.toNat

/-- `V[x] mod 64`, the start column (spec/44_display.md R205). -/
def State.startColumn (s : State) (x : RegIdx) : Nat := (s.reg x).toNat % Config.dispW

/-- `V[y] mod 32`, the start row (R205). -/
def State.startRow (s : State) (y : RegIdx) : Nat := (s.reg y).toNat % Config.dispH

/-- The decimal digits of a byte, hundreds first (R184). -/
def bcdDigits (b : Byte) : List Byte :=
  [BitVec.ofNat 8 (b.toNat / 100), BitVec.ofNat 8 (b.toNat / 10 % 10), BitVec.ofNat 8 (b.toNat % 10)]

/-- The key named by a register's whole content, if there is such a key (spec/45_keyboard_timers.md R227). -/
def keyOf (b : Byte) : Option Key := if h : b.toNat < 16 then some ⟨b.toNat, h⟩ else none

end Sys2Proof.Machine
end

