-- ==== Sys2Proof/Machine/Alu.lean ====
section
/-! DEFINITION. Register load, arithmetic, logic, shifts and random (spec/42_alu.md). The writes of a flag-setting instruction
happen in the order its rule lists them, each reading the registers as the one before left them (R151, the spec's decision
D7). -/
namespace Sys2Proof.Machine

/-- LD Vx, kk (R153). -/
def execLdImm (x : RegIdx) (kk : Byte) (s : State) : Result := .next (s.setReg x kk)

/-- ADD Vx, kk (R154): wraps, no flag. -/
def execAddImm (x : RegIdx) (kk : Byte) (s : State) : Result := .next (s.setReg x (s.reg x + kk))

/-- LD Vx, Vy (R155). -/
def execLdReg (x y : RegIdx) (s : State) : Result := .next (s.setReg x (s.reg y))

/-- OR Vx, Vy (R156): VF is not written. -/
def execOrReg (x y : RegIdx) (s : State) : Result := .next (s.setReg x (s.reg x ||| s.reg y))

/-- AND Vx, Vy (R157): VF is not written. -/
def execAndReg (x y : RegIdx) (s : State) : Result := .next (s.setReg x (s.reg x &&& s.reg y))

/-- XOR Vx, Vy (R158): VF is not written. -/
def execXorReg (x y : RegIdx) (s : State) : Result := .next (s.setReg x (s.reg x ^^^ s.reg y))

/-- ADD Vx, Vy (R159): the sum first, then the carry of the same sum into VF. -/
def execAddReg (x y : RegIdx) (s : State) : Result :=
  .next ((s.setReg x (s.reg x + s.reg y)).setVF (carryFlag (s.reg x) (s.reg y)))

/-- The second assignment of SUB: it reads both registers again (R160). -/
def subtractInto (x y : RegIdx) (s : State) : State := s.setReg x (s.reg x - s.reg y)

/-- SUB Vx, Vy (R160): the flag first. -/
def execSubReg (x y : RegIdx) (s : State) : Result :=
  .next (subtractInto x y (s.setVF (greaterFlag (s.reg x) (s.reg y))))

/-- The second assignment of SUBN (R162). -/
def subtractFrom (x y : RegIdx) (s : State) : State := s.setReg x (s.reg y - s.reg x)

/-- SUBN Vx, Vy (R162): the flag first. -/
def execSubnReg (x y : RegIdx) (s : State) : Result :=
  .next (subtractFrom x y (s.setVF (greaterFlag (s.reg y) (s.reg x))))

/-- The second assignment of SHR: a logical shift by one (R161). -/
def shiftRight (x : RegIdx) (s : State) : State := s.setReg x (s.reg x >>> 1)

/-- SHR Vx (R161): the flag first, y is ignored. -/
def execShr (x _y : RegIdx) (s : State) : Result := .next (shiftRight x (s.setVF (lsbFlag (s.reg x))))

/-- The second assignment of SHL: a shift by one, bit 7 dropped (R163). -/
def shiftLeft (x : RegIdx) (s : State) : State := s.setReg x (s.reg x <<< 1)

/-- SHL Vx (R163): the flag first, y is ignored. -/
def execShl (x _y : RegIdx) (s : State) : Result := .next (shiftLeft x (s.setVF (msbFlag (s.reg x))))

/-- RND Vx, kk (R166): one draw, masked. -/
def execRnd (x : RegIdx) (kk : Byte) (s : State) : Result := .next (s.spendDraw.setReg x (s.drawByte &&& kk))

end Sys2Proof.Machine
end

