-- ==== Sys2Proof/Machine/Blit.lean ====
section
/-! DEFINITION. The display buffer unit and its two instructions (spec/44_display.md). -/
namespace Sys2Proof.Machine

/-- The pixel query `Pix(x, y)` (R203); off outside the grid, where the spec has no pixel and no rule asks. -/
def Display.pixel (d : Display) (x y : Nat) : Bool :=
  if h : x < 64 ∧ y < 32 then (d[y]'h.2)[x]'h.1 else false

/-- `clear()` (R202). -/
def Display.clear : Display := Vector.replicate 32 (Vector.replicate 64 false)

/-- `set_block(x, y)` (R201): the buffer with the pixel toggled, and whether it went from on to off. -/
def Display.setBlock (d : Display) (x y : Nat) (h : x < 64 ∧ y < 32) : Display × Bool :=
  (d.set y ((d[y]'h.2).set x (!(d[y]'h.2)[x]'h.1) h.1) h.2, (d[y]'h.2)[x]'h.1)

/-- Bit c of a sprite row, most significant first: `row[7 - c]` (R205). -/
def spriteBit (row : Byte) (c : Nat) : Bool := row.getLsbD (7 - c)

/-- One sprite bit at column x, row y: a set bit inside the grid toggles its pixel (R205, R207); the second component
collects the collisions (R208). -/
def blitBit (bit : Bool) (x y : Nat) (acc : Display × Bool) : Display × Bool :=
  if h : bit = true ∧ x < 64 ∧ y < 32 then
    let r := acc.1.setBlock x y h.2
    (r.1, acc.2 || r.2)
  else acc

/-- The 8 columns of one row, left to right. -/
def blitRow (x0 y : Nat) (row : Byte) (acc : Display × Bool) : Display × Bool :=
  (List.range 8).foldl (fun a c => blitBit (spriteBit row c) (x0 + c) y a) acc

/-- The rows, top to bottom. -/
def blitRows (x0 : Nat) : Nat → List Byte → Display × Bool → Display × Bool
  | _, [], acc => acc
  | y, row :: rows, acc => blitRows x0 (y + 1) rows (blitRow x0 y row acc)

/-- The blit of R205 on a buffer, and whether a pixel went from on to off. -/
def blit (d : Display) (x0 y0 : Nat) (rows : List Byte) : Display × Bool := blitRows x0 y0 rows (d, false)

/-- The last two lines of R205: VF <- 0, the blit, VF <- 1 on a collision. -/
def drawRows (x0 y0 : Nat) (rows : List Byte) (s : State) : State :=
  let r := blit s.Pix x0 y0 rows
  (s.setPix r.1).setVF (collisionFlag r.2)

/-- Which pixels a sprite at (x0, y0) covers with a set bit: bit c of row r lands on (x0 + c, y0 + r) (R205). The blit does not
use this; claims about it do. -/
def spriteCovers (x0 y0 : Nat) (rows : List Byte) (px py : Nat) : Bool :=
  decide (x0 ≤ px) && decide (px < x0 + 8) && decide (y0 ≤ py) && decide (py < y0 + rows.length) &&
    spriteBit (rows.getD (py - y0) 0) (px - x0)

/-- CLS (R204): VF is not written. -/
def execCls (s : State) : Result := .next (s.setPix Display.clear)

/-- DRW Vx, Vy, n (R205, R209): the coordinates, then all n bytes, and only then VF and the display. -/
def execDrw (x y : RegIdx) (n : BitVec 4) (s : State) : Result :=
  match readBytes s (s.dataAddr 0) (rowCount n) with
  | .error a => raiseFault .memBounds a s
  | .ok rows => .next (drawRows (s.startColumn x) (s.startRow y) rows s)

end Sys2Proof.Machine
end

