-- ==== Sys2Proof/Machine/Flow.lean ====
section
/-! DEFINITION. Control transfer and skips (spec/41_flow.md). On entry `pc` has already been advanced past the instruction
(spec/40_execution_cycle.md R107). -/
namespace Sys2Proof.Machine

/-- "Skip next instruction": one more advance of 2 (R140). -/
def skipIf (c : Bool) (s : State) : Result := .next (if c then s.advancePc else s)

/-- RET (R131): `pc <- pop()`, or STACK_EMPTY with the stack still empty. -/
def execRet (s : State) : Result :=
  match s.stack with
  | [] => raiseFault .stackEmpty 0 s
  | w :: rest => .next ((s.setStack rest).setPc w)

/-- SYS nnn (R132): no effect but the advance. -/
def execSys (_nnn : BitVec 12) (s : State) : Result := .next s

/-- JP nnn (R133). -/
def execJp (nnn : BitVec 12) (s : State) : Result := .next (s.setPc (zextAddr nnn))

/-- CALL nnn (R134): the pushed address is that of the instruction after the CALL. -/
def execCall (nnn : BitVec 12) (s : State) : Result := .next ((s.push s.pc).setPc (zextAddr nnn))

/-- SE Vx, kk (R135). -/
def execSeImm (x : RegIdx) (kk : Byte) (s : State) : Result := skipIf (s.reg x == kk) s

/-- SNE Vx, kk (R136). -/
def execSneImm (x : RegIdx) (kk : Byte) (s : State) : Result := skipIf (s.reg x != kk) s

/-- SE Vx, Vy (R137). -/
def execSeReg (x y : RegIdx) (s : State) : Result := skipIf (s.reg x == s.reg y) s

/-- SNE Vx, Vy (R138). -/
def execSneReg (x y : RegIdx) (s : State) : Result := skipIf (s.reg x != s.reg y) s

/-- JP V0, nnn (R139): not reduced modulo 4096. -/
def execJpV0 (nnn : BitVec 12) (s : State) : Result := .next (s.setPc (zextAddr nnn + s.regWord v0))

end Sys2Proof.Machine
end

