-- ==== Sys2Proof/Machine/Index.lean ====
section
/-! DEFINITION. The index register and the memory transfers (spec/43_index_memory.md). `I` is never changed by an access
(R180). -/
namespace Sys2Proof.Machine

/-- LD I, nnn (R181). -/
def execLdI (nnn : BitVec 12) (s : State) : Result := .next (s.setI (zextAddr nnn))

/-- ADD I, Vx (R182): modulo 65536 (the spec's decision D6), VF untouched. -/
def execAddI (x : RegIdx) (s : State) : Result := .next (s.setI (s.I + s.regWord x))

/-- LD F, Vx (R183): V[x] * 5 in 16 bits, V[x] not masked (the spec's decision D22). -/
def execLdF (x : RegIdx) (s : State) : Result :=
  .next (s.setI (s.regWord x * BitVec.ofNat 16 Config.glyphBytes))

/-- LD B, Vx (R184): hundreds, tens, ones at `I`, `I+1`, `I+2`. -/
def execLdB (x : RegIdx) (s : State) : Result := storeBytes s (s.dataAddr 0) (bcdDigits (s.reg x))

/-- LD [I], Vx (R185): V0 to Vx inclusive to memory from `I`. -/
def execStoreRegs (x : RegIdx) (s : State) : Result := storeBytes s (s.dataAddr 0) (s.regValues x)

/-- LD Vx, [I] (R186): memory from `I` to V0 to Vx inclusive. -/
def execLoadRegs (x : RegIdx) (s : State) : Result := loadBytes s (s.dataAddr 0) (regRange x)

end Sys2Proof.Machine
end

