-- ==== Sys2Proof/Machine/Keyboard.lean ====
section
/-! DEFINITION. The keyboard controller, wait-for-key, and the key and timer instructions (spec/45_keyboard_timers.md). -/
namespace Sys2Proof.Machine

/-- `last_press[k]` (R35). -/
def State.pressTime (s : State) (k : Key) : Option Time := s.lastPress[k.val]'k.isLt

/-- `record_event(e)` (R222). -/
def recordEvent (e : Event) (s : State) : State :=
  match e with
  | .char k ts => { s with lastPress := s.lastPress.set k.val (some ts) k.isLt }
  | .toggle _ => { s with kbToggle := !s.kbToggle }
  | .quit _ => { s with kbQuit := true }

/-- The loop of R223 over the queue q. -/
def drainFrom : List Event → State → State
  | [], s => { s with Q := [] }
  | e :: q, s => if s.kbQuit then { s with Q := e :: q } else drainFrom q (recordEvent e s)

/-- `DrainEvents()` (R223). -/
def drainEvents (s : State) : State := drainFrom s.Q s

/-- `is_held(k, now)` (R224), with the step's own clock sample. -/
def State.isHeld (s : State) (k : Key) : Bool :=
  match s.pressTime k with
  | none => false
  | some t => decide (s.env.now < t + s.params.heldWindow)

/-- A qualifying key event resolves the wait (R225). -/
def resolveWith (dest : RegIdx) (k : Key) (s : State) : State :=
  (s.setReg dest (BitVec.ofNat 8 k.val)).setWait none

/-- The loop of R225 over the queue q. -/
def resolveFrom (w : WaitRequest) : List Event → State → State
  | [], s => { s with Q := [] }
  | e :: q, s =>
    if s.kbQuit then { s with Q := e :: q }
    else
      match e with
      | .quit ts => recordEvent (.quit ts) { s with Q := q }
      | .toggle ts => recordEvent (.toggle ts) { s with Q := q }
      | .char k ts =>
        if w.validAfter ≤ ts then resolveWith w.dest k { s with Q := q } else resolveFrom w q s

/-- `ResolveWait()` (R225). -/
def resolveWait (w : WaitRequest) (s : State) : State := resolveFrom w s.Q s

/-- The shared head of SKP and SKNP: the whole of V[x] is the key number, and a number above 15 raises KEY_INDEX (R227,
R228). -/
def withKey (x : RegIdx) (s : State) (f : Key → Result) : Result :=
  match keyOf (s.reg x) with
  | none => raiseFault .keyIndex (s.reg x).toNat s
  | some k => f k

/-- SKP Vx (R227). -/
def execSkp (x : RegIdx) (s : State) : Result := withKey x s fun k => skipIf (s.isHeld k) s

/-- SKNP Vx (R228). -/
def execSknp (x : RegIdx) (s : State) : Result := withKey x s fun k => skipIf (!s.isHeld k) s

/-- LD Vx, DT (R232). -/
def execLdVxDT (x : RegIdx) (s : State) : Result := .next (s.setReg x s.DT)

/-- LD Vx, K (R229): a wait request, valid from this step's clock sample. V[x] is written by `resolveWait`. -/
def execLdVxK (x : RegIdx) (s : State) : Result :=
  .next (s.setWait (some { dest := x, validAfter := s.env.now }))

/-- LD DT, Vx (R233). -/
def execLdDTVx (x : RegIdx) (s : State) : Result := .next (s.setDT (s.reg x))

/-- LD ST, Vx (R234). -/
def execLdSTVx (x : RegIdx) (s : State) : Result := .next (s.setST (s.reg x))

end Sys2Proof.Machine
end

