-- ==== Sys2Proof/Machine/Sequencer.lean ====
section
/-! DEFINITION. The sequencer (spec/40_execution_cycle.md): what one step does around the instruction it executes, and the
frame end. `Machine/Step.lean` only calls this. -/
namespace Sys2Proof.Machine

/-- The environment's part before a step (R11, R100, R268; log 3): the clock advances to this step's sample, the producer's
events join the tail of `Q`, the port is connected or not. With no entry left the clock stands still, nothing arrives and
the port stays as it is. -/
def takeInput (s : State) : State :=
  match s.env.inputs with
  | [] => s
  | e :: es =>
    { s with
      Q := s.Q ++ e.arrivals
      env := { s.env with inputs := es, now := s.env.now + e.elapsed, disconnected := e.disconnected } }

/-- Steps a and b of R102: a pending wait is polled, otherwise the queue is drained (R103, R104). -/
def pollInput (s : State) : State :=
  match s.wait with
  | some w => resolveWait w s
  | none => drainEvents s

/-- `op <- MemRead(pc, 2)`, the lower address first, or the first address out of range (R108). -/
def fetch (s : State) : Except Nat Word :=
  match readBytes s s.pc.toNat 2 with
  | .ok [first, second] => .ok (opcodeOf first second)
  | .ok _ => .error s.pc.toNat
  | .error a => .error a

/-- Decode and execute one word, with `pc` already advanced (R107); an illegal word raises UNKNOWN_OPCODE (R264). -/
def executeWord (op : Word) (s : State) : Result :=
  match decodeWord op with
  | none => raiseFault .unknownOpcode op.toNat s
  | some i => exec i s

/-- Step e of R102: a fetch that faults leaves `pc` unchanged, and the advance precedes the execution (R107). -/
def fetchExecute (s : State) : Result :=
  match fetch s with
  | .error a => raiseFault .memBounds a s
  | .ok op => executeWord op s.advancePc

/-- Step c of R102 taken: the wait request is cleared and the run ends (R105). -/
def enterQuit (s : State) : State := { s with wait := none, rs := .quit }

/-- The mark of step d (R106). -/
def State.setPaused (s : State) (p : Bool) : State := { s with paused := p }

/-- Steps c, d and e of R102. -/
def controlStep (wasWaiting : Bool) (s : State) : Result :=
  if s.kbQuit then .next (enterQuit s)
  else if s.kbToggle then .next (s.setPaused true)
  else if wasWaiting then .next (s.setPaused false)
  else fetchExecute (s.setPaused false)

/-- R102 from the connection test on: the loss of the channel faults unless a quit has been seen (R268). -/
def engineStep (s : State) : Result :=
  if s.env.disconnected && !s.kbQuit then raiseFault .inputChannelLost 0 s
  else controlStep s.wait.isSome (pollInput s)

/-- One timer's tick, never below 0 (R112). -/
def countDown (b : Byte) : Byte := if b = 0 then 0 else b - 1

/-- The timer tick of a frame end, only when not paused (R112). -/
def tickTimers (s : State) : State :=
  if s.paused then s else { s with DT := countDown s.DT, ST := countDown s.ST }

/-- What the renderer is handed (R118). -/
def State.view (s : State) : View := if s.kbToggle then .keymap else .picture s.Pix

/-- The presentation of a frame end (R118). -/
def present (s : State) : State :=
  { s with out := { frames := s.out.frames + 1, shown := some { frame := s.out.frames, view := s.view } } }

/-- The frame end: tick, presentation, and a new frame (R101). -/
def endFrame (s : State) : State := present (tickTimers { s with phase := 0 })

/-- A completed step is counted, and the N-th ends the frame; a step that left RUN ends the frame at once with neither tick
nor presentation (R101, R122). -/
def countStep (s : State) : State :=
  match s.rs with
  | .run => if s.params.stepsPerFrame ≤ s.phase + 1 then endFrame s else { s with phase := s.phase + 1 }
  | .quit => s
  | .fault _ _ => s

/-- What follows the step's own work. -/
def finishStep : Result → Result
  | .next s => .next (countStep s)
  | .fault r => .fault r
  | .refused r => .refused r

/-- One step in RUN. -/
def runStep (s : State) : Result := finishStep (engineStep (takeInput s))

/-- The bytes of a word at the address the next step fetches from: the high byte at `pc`, the low byte after it. Where the
two addresses are no memory there is nothing to store (R60). -/
def State.placeWord (s : State) (op : Word) : State :=
  if s.pc.toNat + 1 < Config.memSize then s.storeAll s.pc.toNat (wordBytes op) else s

end Sys2Proof.Machine
end

