-- ==== Sys2Proof/Machine/Step.lean ====
section
/-! DEFINITION. One step of the machine (spec/40_execution_cycle.md R102), and how the host places the word a step fetches. -/
namespace Sys2Proof.Machine

/-- R102: steps happen in RUN only ("no step otherwise"); a state whose fault is latched stops with that fault (log 1), one
that has quit has no step to give (log 2). -/
def step (s : State) : Host.Outcome State Fault Refusal :=
  match s.rs with
  | .run => runStep s
  | .quit => .refused .sessionEnded
  | .fault cause info => .fault (.stopped cause info)

/-- The word lies where the next step fetches (log 14). -/
def State.withFetchWord (s : State) (nbits w : Nat) : State := s.placeWord (tableWord nbits w)

end Sys2Proof.Machine
end

