-- ==== Sys2Proof/Safety.lean ====
section
/-! DEFINITION. What counts as a safe run, and the invariant of the machine that claims use. -/
namespace Sys2Proof.Machine

/-- No fault is latched: a run that reaches FAULT has gone wrong (spec/60_exceptions.md R261). QUIT is safe (R280). -/
def State.safe (s : State) : Bool :=
  match s.rs with
  | .run => true
  | .quit => true
  | .fault _ _ => false

/-- The largest value `pc` takes (spec/10_state.md R25): 0xFFF + 0xFF. -/
def pcLimit : Nat := 0x10FE

/-- The largest return address: a CALL at 0xFFE pushes 0x1000 (R25, spec/41_flow.md R134). -/
def returnLimit : Nat := 0x1000

/-- What holds of every state a run reaches. -/
structure State.Inv (s : State) : Prop where
  /-- Memory is in its canonical form, all of it below 4096 (spec/20_memory.md R60). -/
  memory : s.memWf = true
  /-- N is at least 1 (spec/00_scope.md R8). -/
  steps : 1 ≤ s.params.stepsPerFrame
  /-- `phase` is 0 to N-1 (R42). -/
  phase : s.phase < s.params.stepsPerFrame
  /-- `pc` never exceeds 0x10FE (R25). -/
  pc : s.pc.toNat ≤ pcLimit
  /-- Every return address was pushed by a CALL (spec/41_flow.md R131). -/
  stack : ∀ w ∈ s.stack, w.toNat ≤ returnLimit
  /-- The quit flag is set exactly when the run has quit (spec/40_execution_cycle.md R105). -/
  quit : s.kbQuit = true ↔ s.rs = .quit
  /-- A run that has quit waits for no key (R38, R105). -/
  noWait : s.rs = .quit → s.wait = none
  /-- Between the steps of a run the paused mark is the toggle flag (R106). -/
  paused : s.rs = .run → s.paused = s.kbToggle

end Sys2Proof.Machine
end

