-- ==== Sys2Proof/Certificates/Slice0/Obligations.lean ====
section
/-! DEFINITION. The statements for the provers, from the numbered rules of spec/. -/

namespace Sys2Proof.Claims
open Sys2Proof.Machine

/-! ## The words of spec/30_encoding.md R82, as numbers -/

/-- FMT_NNN: `t / nnn`. -/
def wordNNN (t : Nat) (nnn : BitVec 12) : Word := BitVec.ofNat 16 (t * 0x1000 + nnn.toNat)

/-- FMT_XKK, and FMT_X with kk fixed: `t / x / kk`. -/
def wordXKK (t : Nat) (x : RegIdx) (kk : Nat) : Word := BitVec.ofNat 16 (t * 0x1000 + x.val * 0x100 + kk)

/-- FMT_XY and FMT_XYN: `t / x / y / n`. -/
def wordXYN (t : Nat) (x y : RegIdx) (n : Nat) : Word :=
  BitVec.ofNat 16 (t * 0x1000 + x.val * 0x100 + y.val * 0x10 + n)

/-! ## Frames -/

/-- Nothing but general registers differs. -/
def OnlyRegs (s t : State) : Prop := t = { s with V := t.V }

/-- The registers but x are as before. -/
def OtherRegs (x : RegIdx) (s t : State) : Prop := ∀ j, j ≠ x → t.reg j = s.reg j

/-- The registers but x and VF are as before. -/
def OtherRegsThanFlag (x : RegIdx) (s t : State) : Prop := ∀ j, j ≠ x → j ≠ 15 → t.reg j = s.reg j

/-- The registers an instruction may write in its own step (spec/10_state.md R23). -/
def mayWriteReg (j : RegIdx) : Instr → Bool
  | .ldImm x _ | .addImm x _ | .rnd x _ | .ldReg x _ | .orReg x _ | .andReg x _ | .xorReg x _ | .ldVxDT x => j == x
  | .addReg x _ | .subReg x _ | .shr x _ | .subnReg x _ | .shl x _ => j == x || j == 15
  | .drw _ _ _ => j == 15
  | .loadRegs x => decide (j.val ≤ x.val)
  | .cls | .ret | .sys _ | .jp _ | .call _ | .seImm _ _ | .sneImm _ _ | .seReg _ _ | .sneReg _ _ => false
  | .ldI _ | .jpV0 _ | .skp _ | .sknp _ | .ldVxK _ | .ldDTVx _ | .ldSTVx _ | .addI _ | .ldF _ | .ldB _ => false
  | .storeRegs _ => false

/-- The addresses an instruction may store to: `I` plus 0 to 2 for Fx33, `I` plus 0 to x for Fx55 (spec/20_memory.md R63,
R66). -/
def mayStore (s : State) (a : Nat) : Instr → Prop
  | .ldB _ => s.dataAddr 0 ≤ a ∧ a ≤ s.dataAddr 2
  | .storeRegs x => s.dataAddr 0 ≤ a ∧ a ≤ s.dataAddr x.val
  | _ => False

/-- The pixel (px, py) lies under a set bit of the sprite of `Dxyn`: column px - V[x] mod 64 of 8, row py - V[y] mod 32 of n,
bit 7 the leftmost column (spec/44_display.md R205). -/
def drawCovers (s : State) (x y : RegIdx) (n : BitVec 4) (px py : Nat) : Bool :=
  let x0 := (s.reg x).toNat % 64
  let y0 := (s.reg y).toNat % 32
  decide (x0 ≤ px) && decide (px < x0 + 8) && decide (y0 ≤ py) && decide (py < y0 + n.toNat) &&
    (s.byteAt (s.I.toNat + (py - y0))).getLsbD (7 - (px - x0))

/-- All n sprite bytes lie in memory (n = 0 reads none). -/
def spriteInRange (s : State) (n : BitVec 4) : Prop := n = 0 ∨ s.I.toNat + n.toNat ≤ 4096

/-- The state in which step e of spec/40_execution_cycle.md R102 begins: the environment has had its part, the queue has been
polled and the paused mark is clear. -/
def ready (s : State) : State := (pollInput (takeInput s)).setPaused false

/-- What it takes for a step to fetch: a running machine, no wait request, a connected port, and neither quit nor pause seen
when the queue has been polled (R107). -/
structure Fetches (s : State) : Prop where
  run : s.rs = .run
  noWait : s.wait = none
  connected : (takeInput s).env.disconnected = false
  noQuit : (pollInput (takeInput s)).kbQuit = false
  noPause : (pollInput (takeInput s)).kbToggle = false

/-- An early character event: it predates the wait request (spec/45_keyboard_timers.md R225). -/
def early (w : WaitRequest) : Event → Bool
  | .char _ ts => decide (ts < w.validAfter)
  | _ => false

/-- A quit event. -/
def isQuit : Event → Bool
  | .quit _ => true
  | _ => false

/-- The k-th decimal digit of a byte, hundreds first. -/
def digit (b : Byte) (k : Nat) : Nat :=
  if k = 0 then b.toNat / 100 else if k = 1 then b.toNat / 10 % 10 else b.toNat % 10

end Sys2Proof.Claims

open Sys2Proof Sys2Proof.Machine Sys2Proof.Claims

/-! ## Encoding (spec/30_encoding.md) -/

/-- Words of the spec's own examples (spec/95_test_vectors.md) and of the two words it calls illegal decode as it says. -/
def Obligations.SpecWordsDecode : Prop :=
  decodeWord 0x00E0 = some .cls ∧ decodeWord 0x00EE = some .ret ∧ decodeWord 0x0123 = some (.sys 0x123) ∧
  decodeWord 0x1204 = some (.jp 0x204) ∧ decodeWord 0x2208 = some (.call 0x208) ∧
  decodeWord 0x4211 = some (.sneImm 2 0x11) ∧ decodeWord 0x6A02 = some (.ldImm 0xA 2) ∧
  decodeWord 0x8AB4 = some (.addReg 0xA 0xB) ∧ decodeWord 0x812E = some (.shl 1 2) ∧
  decodeWord 0xB300 = some (.jpV0 0x300) ∧ decodeWord 0xD125 = some (.drw 1 2 5) ∧
  decodeWord 0xE0A1 = some (.sknp 0) ∧ decodeWord 0xF265 = some (.loadRegs 2) ∧
  decodeWord 0x5001 = none ∧ decodeWord 0xFFFF = none

/-- Every well-formed instruction, laid out in memory by the encoder, decodes to itself, whatever bytes follow. -/
def Obligations.DecodeInvertsEncode : Prop :=
  ∀ (i : Instr) (rest : List Byte), i.wellFormed = true → decode (encodeBytes i ++ rest) = .ok (i, rest)

/-- Bytes the decoder accepts are the bytes of the one well-formed instruction it reads, followed by the rest it leaves. -/
def Obligations.EncodeInvertsDecode : Prop :=
  ∀ (bytes rest : List Byte) (i : Instr), decode bytes = .ok (i, rest) →
    i.wellFormed = true ∧ bytes = encodeBytes i ++ rest

/-- The illegal words are exactly those R86 lists. -/
def Obligations.IllegalWordsAreThoseListed : Prop :=
  ∀ op : Word, decodeWord op = none ↔
    let t := op.toNat / 0x1000
    let n := op.toNat % 0x10
    let kk := op.toNat % 0x100
    (t = 0x5 ∧ n ≠ 0) ∨ (t = 0x8 ∧ n ∈ [0x8, 0x9, 0xA, 0xB, 0xC, 0xD, 0xF]) ∨ (t = 0x9 ∧ n ≠ 0) ∨
    (t = 0xE ∧ kk ∉ [0x9E, 0xA1]) ∨
    (t = 0xF ∧ kk ∉ [0x07, 0x0A, 0x15, 0x18, 0x1E, 0x29, 0x33, 0x55, 0x65])

/-! ## Memory and fetch (spec/20_memory.md) -/

/-- The byte at the lower address supplies bits 15:8 of the opcode, the byte after it bits 7:0 (R62). That an odd address is
fetched from like an even one is the spec's decision D27 (R65, log 38). -/
def Obligations.FetchIsBigEndian : Prop :=
  ∀ s : State, s.pc.toNat + 1 < 4096 → ∃ op, fetch s = .ok op ∧
    op.extractLsb' 8 8 = s.byteAt s.pc.toNat ∧ op.extractLsb' 0 8 = s.byteAt (s.pc.toNat + 1)

/-- A byte of memory reads as the latest store to its address, and a store leaves every other byte, the canonical form and
everything that is not memory, whatever the parameter FONT is. -/
def Obligations.LoadSeesLatestStore : Prop :=
  ∀ (s : State) (a : Nat) (b : Byte), s.memWf = true → a < 4096 →
    (s.storeByte a b).memWf = true ∧ (s.storeByte a b).byteAt a = b ∧
    (∀ c, c ≠ a → (s.storeByte a b).byteAt c = s.byteAt c) ∧
    s.storeByte a b = { s with mem := (s.storeByte a b).mem }

/-- A word stored byte by byte at `pc`, high byte first, is what the next fetch reads. -/
def Obligations.StoredWordIsFetched : Prop :=
  ∀ (s : State) (op : Word), s.memWf = true → s.pc.toNat + 1 < 4096 →
    fetch ((s.storeByte s.pc.toNat (op.extractLsb' 8 8)).storeByte (s.pc.toNat + 1) (op.extractLsb' 0 8)) = .ok op

/-! ## Reset, load, and the whole machine -/

/-- The reset state. The entry point and every zero beyond memory, V, I and the stack are the spec's decisions D1 and D2
(log 7). The font's bytes are the parameter FONT, whatever it is, its default the table of D3 (log 6). That no program is
marked as loaded is the model's own (log 11). -/
def Obligations.ResetLeavesTheListedState : Prop :=
  (∀ i, State.reset.reg i = 0) ∧ State.reset.I = 0 ∧ State.reset.pc = 0x200 ∧ State.reset.stack = [] ∧
  (∀ d, d < 16 → ∀ r, r < 5 →
    State.reset.byteAt (5 * d + r) = ((Config.glyphsLow ++ Config.glyphsHigh).getD d []).getD r 0) ∧
  (∀ (p : Config.Params) (a : Nat),
    (∀ h : a < 0x050, ({ State.reset with params := p } : State).byteAt a = p.font[a]) ∧
    (0x050 ≤ a → ({ State.reset with params := p } : State).byteAt a = 0)) ∧
  State.reset.DT = 0 ∧ State.reset.ST = 0 ∧ (∀ px py, State.reset.Pix.pixel px py = false) ∧
  (∀ k, State.reset.pressTime k = none) ∧ State.reset.kbQuit = false ∧ State.reset.kbToggle = false ∧
  State.reset.Q = [] ∧ State.reset.wait = none ∧ State.reset.paused = false ∧ State.reset.rs = .run ∧
  State.reset.phase = 0 ∧ State.reset.loaded = false

/-- The invariant holds at reset. -/
def Obligations.ResetSatisfiesInvariant : Prop := State.reset.Inv

/-- Every step keeps the invariant: memory stays canonical and below 4096, `pc` stays at most 0x10FE, every return address
at most 0x1000, `phase` below N, the quit flag and QUIT go together, and between steps the paused mark is the toggle flag. -/
def Obligations.StepKeepsInvariant : Prop := ∀ s t : State, s.Inv → step s = .next t → t.Inv

/-- In RUN a step always completes: no word, no operand and no input makes the machine refuse or get stuck. -/
def Obligations.RunningMachineAlwaysSteps : Prop := ∀ s : State, s.rs = .run → ∃ t, step s = .next t

/-- `load` in the reset state, for any parameters, FONT among them, and any environment: a program of at most 3584 bytes lands
at 0x200 and up and nothing else of the machine changes; a longer one changes nothing and is reported (R305, R306). In
every other state, after a load of any program (an empty one too) and after any step, `load` is refused (the spec's
decision D26, log 35). That the reports are these refusals, and the mark `loaded`, are the model's choice (log 11). -/
def Obligations.LoadPlacesProgramOrReports : Prop :=
  ∀ (p : List Byte) (s : State),
    (s = { State.reset with params := s.params, env := s.env } →
      (p.length + 0x200 ≤ 4096 → ∃ t, loadProgram p s = .next t ∧ t = { s with mem := t.mem, loaded := true } ∧
        (∀ k, (h : k < p.length) → t.byteAt (0x200 + k) = p[k]) ∧
        ∀ a, (a < 0x200 ∨ 0x200 + p.length ≤ a) → t.byteAt a = s.byteAt a) ∧
      (4096 < p.length + 0x200 → loadProgram p s = .refused .loadTooLarge)) ∧
    (s ≠ { State.reset with params := s.params, env := s.env } → loadProgram p s = .refused .loadOutsideReset) ∧
    (∀ q t, loadProgram q s = .next t → loadProgram p t = .refused .loadOutsideReset) ∧
    ∀ t, step s = .next t → loadProgram p t = .refused .loadOutsideReset

/-! ## Steps (spec/40_execution_cycle.md) -/

/-- When the bytes at `pc` decode to i and the step fetches, the step is the meaning of i run in the state with the input
polled, the paused mark clear and `pc` advanced by 2, and then the step is counted. Before the meaning only the press
times, the two flags, the queue, the environment and the paused mark may differ; after it only the phase, the timers and
the output. -/
def Obligations.StepRunsDecodedInstruction : Prop :=
  ∀ (s : State) (i : Instr), Fetches s → s.pc.toNat + 1 < 4096 →
    decode [s.byteAt s.pc.toNat, s.byteAt (s.pc.toNat + 1)] = .ok (i, []) →
    ∃ t u, exec i ((ready s).setPc (s.pc + 2)) = .next t ∧ step s = .next u ∧ u = countStep t ∧
      ready s =
        { s with
          lastPress := (ready s).lastPress, kbQuit := false, kbToggle := false, Q := (ready s).Q, env := (ready s).env,
          paused := false } ∧
      u = { t with phase := u.phase, DT := u.DT, ST := u.ST, out := u.out }

/-- An illegal word executed latches UNKNOWN_OPCODE with the word, `pc` its address plus 2, and nothing else of the machine
changes (R264). -/
def Obligations.UnknownOpcodeLatches : Prop :=
  ∀ (s : State) (op : Word), Fetches s → s.pc.toNat + 1 < 4096 → fetch s = .ok op → decodeWord op = none →
    step s = .next { ready s with pc := s.pc + 2, rs := .fault .unknownOpcode op.toNat }

/-- A fetch past the end of memory latches MEM_BOUNDS with the first address out of range and leaves `pc` unchanged (the
spec's decision D5). -/
def Obligations.FetchOutOfRangeLatches : Prop :=
  ∀ s : State, Fetches s → 4095 ≤ s.pc.toNat →
    step s = .next { ready s with
      rs := .fault .memBounds (if s.pc.toNat = 4095 then 4096 else s.pc.toNat) }

/-- The environment's part of a step: the events that arrive join the tail of `Q` in their order (R37, R100), the clock sample
never goes back (R11), and the port is connected or not; with no input left nothing changes. The form of the input is the
model's (log 3, log 12, log 13, log 18). A disconnected port then faults the step before any event is processed, unless a
quit has been seen (the spec's decision D20, log 34). -/
def Obligations.LostChannelLatches : Prop :=
  ∀ s : State,
    (s.env.inputs = [] → takeInput s = s) ∧
    (∀ e es, s.env.inputs = e :: es →
      takeInput s = { s with
        Q := s.Q ++ e.arrivals
        env := { s.env with inputs := es, now := s.env.now + e.elapsed, disconnected := e.disconnected } }) ∧
    s.env.now ≤ (takeInput s).env.now ∧
    (s.rs = .run → (takeInput s).env.disconnected = true → s.kbQuit = false →
      step s = .next { takeInput s with rs := .fault .inputChannelLost 0 })

/-- A step that sees the quit flag, set by its own poll or before, ends the run: the wait request is cleared, nothing is
executed, even if the pause toggle is set; no tick, no presentation, and no step follows (R105). -/
def Obligations.QuitEndsTheRun : Prop :=
  ∀ s : State, s.rs = .run → ((takeInput s).env.disconnected = false ∨ s.kbQuit = true) →
    (pollInput (takeInput s)).kbQuit = true →
    ∃ t, step s = .next t ∧ t.rs = .quit ∧ t.wait = none ∧ t.pc = s.pc ∧ t.mem = s.mem ∧ t.I = s.I ∧
      t.stack = s.stack ∧ t.Pix = s.Pix ∧ t.DT = s.DT ∧ t.ST = s.ST ∧ t.phase = s.phase ∧ t.out = s.out ∧
      (s.wait = none → t.V = s.V) ∧ ∀ u, step t ≠ .next u

/-- A step that sees the toggle set marks the machine paused and fetches nothing: the input is polled and nothing else of the
machine changes, the queue drained to its end where no wait is pending and left as the poll of the wait leaves it where
one is (R225); the step is counted, and at a frame end the key map is presented with no tick (R112, R118). A step that
sees it clear clears the mark (R106). The frame number of the presentation is the model's choice (log 8). -/
def Obligations.ToggleGatesExecution : Prop :=
  ∀ s : State, s.rs = .run → (takeInput s).env.disconnected = false → (pollInput (takeInput s)).kbQuit = false →
    ((pollInput (takeInput s)).kbToggle = true →
      ∃ t, step s = .next t ∧ t.paused = true ∧ t.rs = .run ∧ t.pc = s.pc ∧ t.mem = s.mem ∧ t.I = s.I ∧
        t.stack = s.stack ∧ t.Pix = s.Pix ∧ t.DT = s.DT ∧ t.ST = s.ST ∧
        (s.wait = none → t.V = s.V ∧ t.Q = []) ∧
        t.V = (pollInput (takeInput s)).V ∧ t.Q = (pollInput (takeInput s)).Q ∧
        t.wait = (pollInput (takeInput s)).wait ∧ t.lastPress = (pollInput (takeInput s)).lastPress ∧
        (s.phase + 1 < s.params.stepsPerFrame → t.phase = s.phase + 1 ∧ t.out = s.out) ∧
        (s.params.stepsPerFrame ≤ s.phase + 1 → t.phase = 0 ∧
          t.out = { frames := s.out.frames + 1, shown := some { frame := s.out.frames, view := .keymap } })) ∧
    ((pollInput (takeInput s)).kbToggle = false → ∃ t, step s = .next t ∧ t.paused = false)

/-- A step that begins with a wait pending executes no instruction: `pc`, `I`, the stack, memory, the display, the press
times and every register but the request's destination stay (the spec's decisions D13, D14). With the port connected, and
neither quit nor toggle seen after the attempt to resolve the wait, the step answers the state the attempt leaves, the
paused mark clear, counted: at a frame end each timer goes down by one unless it is 0 and the display is presented, a
wait being no pause (R110, the spec's decision D11, log 26). The frame number is the model's choice (log 8). -/
def Obligations.WaitingStepExecutesNothing : Prop :=
  ∀ (s : State) (w : WaitRequest), s.wait = some w →
    (∀ t, step s = .next t →
      t.pc = s.pc ∧ t.I = s.I ∧ t.stack = s.stack ∧ t.mem = s.mem ∧ t.Pix = s.Pix ∧ t.lastPress = s.lastPress ∧
      t.env.draws = s.env.draws ∧ (t.wait = some w ∨ t.wait = none) ∧ OtherRegs w.dest s t) ∧
    (s.rs = .run → (takeInput s).env.disconnected = false → (resolveWait w (takeInput s)).kbQuit = false →
      (resolveWait w (takeInput s)).kbToggle = false →
      ∃ t, step s = .next t ∧ t = countStep ((resolveWait w (takeInput s)).setPaused false) ∧
        t.V = (resolveWait w (takeInput s)).V ∧ t.Q = (resolveWait w (takeInput s)).Q ∧
        t.wait = (resolveWait w (takeInput s)).wait ∧ t.rs = .run ∧ t.paused = false ∧
        (s.phase + 1 < s.params.stepsPerFrame →
          t.phase = s.phase + 1 ∧ t.DT = s.DT ∧ t.ST = s.ST ∧ t.out = s.out) ∧
        (s.params.stepsPerFrame ≤ s.phase + 1 →
          t.phase = 0 ∧ t.DT.toNat = s.DT.toNat - 1 ∧ t.ST.toNat = s.ST.toNat - 1 ∧
          t.out = { frames := s.out.frames + 1, shown := some { frame := s.out.frames, view := .picture s.Pix } }))

/-- After a step that stays in RUN the control state is Paused exactly when the toggle flag is set, WaitingForKey exactly when
it is clear and a request is pending, Running otherwise; the tick and the presentation of that step change nothing here. -/
def Obligations.ControlStateFollowsToggleAndWait : Prop :=
  ∀ s t : State, step s = .next t → t.rs = .run →
    (t.kbToggle = true → t.control = .paused) ∧
    (t.kbToggle = false → t.wait ≠ none → t.control = .waitingForKey) ∧
    (t.kbToggle = false → t.wait = none → t.control = .running)

/-- Every step that stays in RUN is counted, the N-th returns the phase to 0, and a step that leaves RUN is not counted. -/
def Obligations.StepsAreCountedModuloN : Prop :=
  ∀ s t : State, step s = .next t →
    (t.rs = .run → t.phase = if s.params.stepsPerFrame ≤ s.phase + 1 then 0 else s.phase + 1) ∧
    (t.rs ≠ .run → t.phase = s.phase)

/-- The timer tick: at a frame end and not paused each timer goes down by one unless it is 0; paused, or within a frame,
neither changes; and a step that left RUN ticks nothing (R112). -/
def Obligations.TimersTickOncePerFrame : Prop :=
  ∀ s : State,
    (s.rs = .run → s.params.stepsPerFrame ≤ s.phase + 1 → s.paused = false →
      (countStep s).DT.toNat = s.DT.toNat - 1 ∧ (countStep s).ST.toNat = s.ST.toNat - 1) ∧
    (s.paused = true ∨ s.phase + 1 < s.params.stepsPerFrame ∨ s.rs ≠ .run →
      (countStep s).DT = s.DT ∧ (countStep s).ST = s.ST)

/-- The presentation: once per frame end in RUN, after the tick, the display buffer as it is, or the key-map select while the
toggle flag is set; at no other time (R118). The count of frames from 0 is the model's choice (log 8). -/
def Obligations.FrameEndPresents : Prop :=
  ∀ s : State,
    (s.rs = .run → s.params.stepsPerFrame ≤ s.phase + 1 →
      (countStep s).out = { frames := s.out.frames + 1, shown := some { frame := s.out.frames, view := s.view } } ∧
      (s.kbToggle = true → s.view = .keymap) ∧ (s.kbToggle = false → s.view = .picture s.Pix)) ∧
    (s.phase + 1 < s.params.stepsPerFrame ∨ s.rs ≠ .run → (countStep s).out = s.out)

/-- A fault raised inside a step freezes the machine in that step: no timer ticks, nothing is presented, and no step follows
(R122); the step is not counted (R101); and the display is untouched, since Dxyn reads all its bytes before it draws (the
spec's decision D8, log 24). -/
def Obligations.FaultFreezesTheMachine : Prop :=
  ∀ (s t : State) (c : FaultCause) (n : Nat), step s = .next t → t.rs = .fault c n →
    t.phase = s.phase ∧ t.DT = s.DT ∧ t.ST = s.ST ∧ t.out = s.out ∧ t.Pix = s.Pix ∧ ∀ u, step t ≠ .next u

/-- Only an executed Fx15 makes the delay timer larger. -/
def Obligations.OnlyTimerLoadRaisesDelay : Prop :=
  ∀ s t : State, step s = .next t → s.DT.toNat < t.DT.toNat →
    ∃ x, decodeWord (opcodeOf (s.byteAt s.pc.toNat) (s.byteAt (s.pc.toNat + 1))) = some (.ldDTVx x)

/-- A run quits only on a quit event from the key port, never by the program. -/
def Obligations.QuitComesFromQuitEvent : Prop :=
  ∀ s t : State, step s = .next t → t.rs = .quit → s.kbQuit = true ∨ ∃ ts, Event.quit ts ∈ (takeInput s).Q

/-! ## Control transfer (spec/41_flow.md): `s.pc` is the address of the instruction plus 2 -/

/-- JP nnn (R133) and JP V0, nnn (R139): `pc` is nnn, or nnn plus V0 not reduced modulo 4096; nothing else changes. -/
def Obligations.JumpsSetPc : Prop :=
  ∀ (s : State) (nnn : BitVec 12),
    decodeWord (wordNNN 0x1 nnn) = some (.jp nnn) ∧ decodeWord (wordNNN 0xB nnn) = some (.jpV0 nnn) ∧
    (∃ t, exec (.jp nnn) s = .next t ∧ t.pc.toNat = nnn.toNat ∧ t = { s with pc := t.pc }) ∧
    (∃ t, exec (.jpV0 nnn) s = .next t ∧ t.pc.toNat = nnn.toNat + (s.reg 0).toNat ∧ t = { s with pc := t.pc })

/-- CALL nnn (R134): the address after the CALL is pushed on the stack however deep it is, `pc` is nnn. -/
def Obligations.CallPushesReturnAddress : Prop :=
  ∀ (s : State) (nnn : BitVec 12), decodeWord (wordNNN 0x2 nnn) = some (.call nnn) ∧
    ∃ t, exec (.call nnn) s = .next t ∧ t.stack = s.pc :: s.stack ∧ t.pc.toNat = nnn.toNat ∧
      t = { s with stack := t.stack, pc := t.pc }

/-- RET (R131): the last pushed address is popped into `pc` as it is; with an empty stack STACK_EMPTY is raised, `pc` stays
the address after the RET and the stack stays empty. -/
def Obligations.ReturnPopsOrFaults : Prop :=
  decodeWord 0x00EE = some .ret ∧ ∀ s : State,
    (∀ w rest, s.stack = w :: rest → exec .ret s = .next { s with stack := rest, pc := w }) ∧
    (s.stack = [] → exec .ret s = .next { s with rs := .fault .stackEmpty 0 })

/-- CALL then RET restores `pc` to the instruction after the CALL and the stack to what it was, whatever happened in between
to anything but the stack. -/
def Obligations.CallThenReturnRestores : Prop :=
  ∀ (s u : State) (nnn : BitVec 12), ∃ t, exec (.call nnn) s = .next t ∧
    (u.stack = t.stack → exec .ret u = .next { u with pc := s.pc, stack := s.stack })

/-- SYS nnn (R132): every 0nnn but 00E0 and 00EE decodes to it, and it changes nothing. -/
def Obligations.SysDoesNothing : Prop :=
  ∀ (s : State) (nnn : BitVec 12), nnn ≠ 0x0E0 → nnn ≠ 0x0EE →
    decodeWord (wordNNN 0x0 nnn) = some (.sys nnn) ∧ exec (.sys nnn) s = .next s

/-- SE Vx, kk (R135) and SNE Vx, kk (R136): one more advance of 2 when the comparison holds, else nothing. -/
def Obligations.ImmediateSkips : Prop :=
  ∀ (s : State) (x : RegIdx) (kk : Byte),
    decodeWord (wordXKK 0x3 x kk.toNat) = some (.seImm x kk) ∧
    decodeWord (wordXKK 0x4 x kk.toNat) = some (.sneImm x kk) ∧
    (s.reg x = kk → exec (.seImm x kk) s = .next { s with pc := s.pc + 2 } ∧ exec (.sneImm x kk) s = .next s) ∧
    (s.reg x ≠ kk → exec (.seImm x kk) s = .next s ∧ exec (.sneImm x kk) s = .next { s with pc := s.pc + 2 })

/-- SE Vx, Vy (R137) and SNE Vx, Vy (R138), x and y possibly the same register; with a bottom nibble other than 0 the word
executed raises UNKNOWN_OPCODE (the choice of C1 and the spec's decision D17, log 30). -/
def Obligations.RegisterSkips : Prop :=
  ∀ (s : State) (x y : RegIdx),
    decodeWord (wordXYN 0x5 x y 0) = some (.seReg x y) ∧ decodeWord (wordXYN 0x9 x y 0) = some (.sneReg x y) ∧
    (∀ n, 0 < n → n < 16 →
      executeWord (wordXYN 0x5 x y n) s = .next { s with rs := .fault .unknownOpcode (wordXYN 0x5 x y n).toNat } ∧
      executeWord (wordXYN 0x9 x y n) s = .next { s with rs := .fault .unknownOpcode (wordXYN 0x9 x y n).toNat }) ∧
    (s.reg x = s.reg y → exec (.seReg x y) s = .next { s with pc := s.pc + 2 } ∧ exec (.sneReg x y) s = .next s) ∧
    (s.reg x ≠ s.reg y → exec (.seReg x y) s = .next s ∧ exec (.sneReg x y) s = .next { s with pc := s.pc + 2 })

/-! ## Arithmetic and logic (spec/42_alu.md) -/

/-- LD Vx, kk (R153), ADD Vx, kk (R154: modulo 256, no flag) and LD Vx, Vy (R155), any register, VF among them. -/
def Obligations.RegisterLoadsAndImmediateAdd : Prop :=
  ∀ (s : State) (x y : RegIdx) (kk : Byte),
    decodeWord (wordXKK 0x6 x kk.toNat) = some (.ldImm x kk) ∧
    decodeWord (wordXKK 0x7 x kk.toNat) = some (.addImm x kk) ∧
    decodeWord (wordXYN 0x8 x y 0x0) = some (.ldReg x y) ∧
    (∃ t, exec (.ldImm x kk) s = .next t ∧ t.reg x = kk ∧ OtherRegs x s t ∧ OnlyRegs s t) ∧
    (∃ t, exec (.addImm x kk) s = .next t ∧ (t.reg x).toNat = ((s.reg x).toNat + kk.toNat) % 256 ∧
      OtherRegs x s t ∧ OnlyRegs s t) ∧
    (∃ t, exec (.ldReg x y) s = .next t ∧ t.reg x = s.reg y ∧ OtherRegs x s t ∧ OnlyRegs s t)

/-- OR (R156), AND (R157), XOR (R158): bit by bit into Vx; VF is written only as the destination. -/
def Obligations.LogicIsBitwise : Prop :=
  ∀ (s : State) (x y : RegIdx),
    decodeWord (wordXYN 0x8 x y 0x1) = some (.orReg x y) ∧ decodeWord (wordXYN 0x8 x y 0x2) = some (.andReg x y) ∧
    decodeWord (wordXYN 0x8 x y 0x3) = some (.xorReg x y) ∧
    (∃ t, exec (.orReg x y) s = .next t ∧ OtherRegs x s t ∧ OnlyRegs s t ∧
      ∀ k, (t.reg x).getLsbD k = ((s.reg x).getLsbD k || (s.reg y).getLsbD k)) ∧
    (∃ t, exec (.andReg x y) s = .next t ∧ OtherRegs x s t ∧ OnlyRegs s t ∧
      ∀ k, (t.reg x).getLsbD k = ((s.reg x).getLsbD k && (s.reg y).getLsbD k)) ∧
    (∃ t, exec (.xorReg x y) s = .next t ∧ OtherRegs x s t ∧ OnlyRegs s t ∧
      ∀ k, (t.reg x).getLsbD k = ((s.reg x).getLsbD k ^^ (s.reg y).getLsbD k))

/-- ADD Vx, Vy (R159): the sum modulo 256 into Vx, then the carry into VF, both of the original operands; with x = F the
carry overwrites the sum. -/
def Obligations.AddSetsCarry : Prop :=
  ∀ (s : State) (x y : RegIdx), decodeWord (wordXYN 0x8 x y 0x4) = some (.addReg x y) ∧
    ∃ t, exec (.addReg x y) s = .next t ∧ OnlyRegs s t ∧ OtherRegsThanFlag x s t ∧
      (x ≠ 15 → (t.reg x).toNat = ((s.reg x).toNat + (s.reg y).toNat) % 256) ∧
      t.reg 15 = if 255 < (s.reg x).toNat + (s.reg y).toNat then 1 else 0

/-- SUB Vx, Vy and SUBN Vx, Vy: the strict flag into VF first, then the difference of the registers read again (the spec's
decision D7), with every case in which VF is an operand: there the flag just written is what is subtracted, or
subtracted from. -/
def Obligations.SubtractionsFlagThenDifference : Prop :=
  ∀ (s : State) (x y : RegIdx),
    decodeWord (wordXYN 0x8 x y 0x5) = some (.subReg x y) ∧ decodeWord (wordXYN 0x8 x y 0x7) = some (.subnReg x y) ∧
    (∃ t, exec (.subReg x y) s = .next t ∧ OnlyRegs s t ∧ OtherRegsThanFlag x s t ∧
      let f := if (s.reg y).toNat < (s.reg x).toNat then 1 else 0
      (x ≠ 15 → y ≠ 15 → (t.reg 15).toNat = f ∧
        (t.reg x).toNat = ((s.reg x).toNat + 256 - (s.reg y).toNat) % 256) ∧
      (x = 15 → y ≠ 15 → (t.reg 15).toNat = (f + 256 - (s.reg y).toNat) % 256) ∧
      (x ≠ 15 → y = 15 → (t.reg 15).toNat = f ∧ (t.reg x).toNat = ((s.reg x).toNat + 256 - f) % 256) ∧
      (x = 15 → y = 15 → t.reg 15 = 0)) ∧
    (∃ t, exec (.subnReg x y) s = .next t ∧ OnlyRegs s t ∧ OtherRegsThanFlag x s t ∧
      let f := if (s.reg x).toNat < (s.reg y).toNat then 1 else 0
      (x ≠ 15 → y ≠ 15 → (t.reg 15).toNat = f ∧
        (t.reg x).toNat = ((s.reg y).toNat + 256 - (s.reg x).toNat) % 256) ∧
      (x = 15 → y ≠ 15 → (t.reg 15).toNat = ((s.reg y).toNat + 256 - f) % 256) ∧
      (x ≠ 15 → y = 15 → (t.reg 15).toNat = f ∧ (t.reg x).toNat = (f + 256 - (s.reg x).toNat) % 256) ∧
      (x = 15 → y = 15 → t.reg 15 = 0))

/-- SHR Vx and SHL Vx: the flag of the bit shifted out (0 or 1 for SHR, 0 or 0x80 for SHL: the spec's decision D9) into VF,
then the shift by one of Vx; with x = F the result is 0 (D7), and Vy is ignored (D23, log 37). -/
def Obligations.ShiftsFlagThenShift : Prop :=
  ∀ (s : State) (x y : RegIdx),
    decodeWord (wordXYN 0x8 x y 0x6) = some (.shr x y) ∧ decodeWord (wordXYN 0x8 x y 0xE) = some (.shl x y) ∧
    (∃ t, exec (.shr x y) s = .next t ∧ OnlyRegs s t ∧ OtherRegsThanFlag x s t ∧
      (x ≠ 15 → (t.reg x).toNat = (s.reg x).toNat / 2 ∧ (t.reg 15).toNat = (s.reg x).toNat % 2) ∧
      (x = 15 → t.reg 15 = 0)) ∧
    (∃ t, exec (.shl x y) s = .next t ∧ OnlyRegs s t ∧ OtherRegsThanFlag x s t ∧
      (x ≠ 15 → (t.reg x).toNat = (s.reg x).toNat * 2 % 256 ∧
        t.reg 15 = if 128 ≤ (s.reg x).toNat then 0x80 else 0) ∧
      (x = 15 → t.reg 15 = 0))

/-- RND Vx, kk: some byte d masked with kk, one draw made; a supplied byte is the one drawn and is consumed, and with none
supplied nothing is said of d (the spec's decision D24; free value, log 4). -/
def Obligations.RandomByteIsMasked : Prop :=
  ∀ (s : State) (x : RegIdx) (kk : Byte), decodeWord (wordXKK 0xC x kk.toNat) = some (.rnd x kk) ∧
    ∃ t d, exec (.rnd x kk) s = .next t ∧ t = { s with V := t.V, env := t.env } ∧ OtherRegs x s t ∧
      (∀ k, (t.reg x).getLsbD k = (d.getLsbD k && kk.getLsbD k)) ∧
      t.env = { s.env with random := s.env.random.tail, draws := s.env.draws + 1 } ∧
      ∀ b rest, s.env.random = b :: rest → d = b

/-! ## Index register and memory (spec/43_index_memory.md) -/

/-- LD I, nnn (R181). -/
def Obligations.IndexLoad : Prop :=
  ∀ (s : State) (nnn : BitVec 12), decodeWord (wordNNN 0xA nnn) = some (.ldI nnn) ∧
    ∃ t, exec (.ldI nnn) s = .next t ∧ t.I.toNat = nnn.toNat ∧ t = { s with I := t.I }

/-- ADD I, Vx modulo 65536 with no flag, and LD F, Vx, five times the whole register (the spec's decisions D6, D22, D23). -/
def Obligations.IndexArithmetic : Prop :=
  ∀ (s : State) (x : RegIdx),
    decodeWord (wordXKK 0xF x 0x1E) = some (.addI x) ∧ decodeWord (wordXKK 0xF x 0x29) = some (.ldF x) ∧
    (∃ t, exec (.addI x) s = .next t ∧ t.I.toNat = (s.I.toNat + (s.reg x).toNat) % 65536 ∧ t = { s with I := t.I }) ∧
    (∃ t, exec (.ldF x) s = .next t ∧ t.I.toNat = (s.reg x).toNat * 5 ∧ t = { s with I := t.I })

/-- LD B, Vx (R184): hundreds, tens and ones at `I`, `I+1`, `I+2`, every other byte as before; MEM_BOUNDS at the first of the
three that is 4096 or more, with the digits before it written. -/
def Obligations.BcdStoresDigits : Prop :=
  ∀ (s : State) (x : RegIdx), s.memWf = true → decodeWord (wordXKK 0xF x 0x33) = some (.ldB x) ∧
    ∃ t, exec (.ldB x) s = .next t ∧
      (∀ k, k < 3 → s.dataAddr k < 4096 → (t.byteAt (s.dataAddr k)).toNat = digit (s.reg x) k) ∧
      (∀ a, (a < s.dataAddr 0 ∨ s.dataAddr 2 < a ∨ 4096 ≤ a) → t.byteAt a = s.byteAt a) ∧
      (s.dataAddr 2 < 4096 → t = { s with mem := t.mem }) ∧
      (4096 ≤ s.dataAddr 2 →
        t = { s with mem := t.mem, rs := .fault .memBounds (if 4096 ≤ s.I.toNat then s.I.toNat else 4096) })

/-- LD [I], Vx (R185): V0 to Vx inclusive at `I` and up, every other byte, `I` and the registers as before; MEM_BOUNDS at the
first address of 4096 or more, with the bytes before it written. -/
def Obligations.RegisterRangeIsStored : Prop :=
  ∀ (s : State) (x : RegIdx), s.memWf = true → decodeWord (wordXKK 0xF x 0x55) = some (.storeRegs x) ∧
    ∃ t, exec (.storeRegs x) s = .next t ∧
      (∀ k : RegIdx, k ≤ x → s.dataAddr k.val < 4096 → t.byteAt (s.dataAddr k.val) = s.reg k) ∧
      (∀ a, (a < s.dataAddr 0 ∨ s.dataAddr x.val < a ∨ 4096 ≤ a) → t.byteAt a = s.byteAt a) ∧
      (s.dataAddr x.val < 4096 → t = { s with mem := t.mem }) ∧
      (4096 ≤ s.dataAddr x.val →
        t = { s with mem := t.mem, rs := .fault .memBounds (if 4096 ≤ s.I.toNat then s.I.toNat else 4096) })

/-- LD Vx, [I] (R186): memory from `I` up into V0 to Vx inclusive, the registers beyond Vx, `I` and memory as before;
MEM_BOUNDS at the first address of 4096 or more, with the registers before it loaded and those from it on as before. -/
def Obligations.RegisterRangeIsLoaded : Prop :=
  ∀ (s : State) (x : RegIdx), decodeWord (wordXKK 0xF x 0x65) = some (.loadRegs x) ∧
    ∃ t, exec (.loadRegs x) s = .next t ∧
      (∀ k : RegIdx, k ≤ x → s.dataAddr k.val < 4096 → t.reg k = s.byteAt (s.dataAddr k.val)) ∧
      (∀ k : RegIdx, (x < k ∨ 4096 ≤ s.dataAddr k.val) → t.reg k = s.reg k) ∧
      (s.dataAddr x.val < 4096 → OnlyRegs s t) ∧
      (4096 ≤ s.dataAddr x.val →
        t = { s with V := t.V, rs := .fault .memBounds (if 4096 ≤ s.I.toNat then s.I.toNat else 4096) })

/-! ## Display (spec/44_display.md) -/

/-- CLS (R204) by `clear()` (R202): every pixel off, VF and everything else as before. -/
def Obligations.ClearTurnsAllPixelsOff : Prop :=
  decodeWord 0x00E0 = some .cls ∧ ∀ s : State, ∃ t, exec .cls s = .next t ∧ t = { s with Pix := t.Pix } ∧
    ∀ px py, px < 64 → py < 32 → t.Pix.pixel px py = false

/-- `set_block(x, y)` (R201): the pixel is toggled, no other is touched, and the report is whether it was on. -/
def Obligations.SetBlockTogglesAndReports : Prop :=
  ∀ (d : Display) (x y : Nat) (h : x < 64 ∧ y < 32),
    (d.setBlock x y h).2 = d.pixel x y ∧ (d.setBlock x y h).1.pixel x y = (!d.pixel x y) ∧
    ∀ px py, (px ≠ x ∨ py ≠ y) → (d.setBlock x y h).1.pixel px py = d.pixel px py

/-- DRW: exactly the pixels of the grid under a set sprite bit are toggled, none wraps round an edge, and VF is 1 exactly when
one of them was on, else 0. The coordinates come from Vx and Vy before VF is written (the spec's decision D8). -/
def Obligations.DrawTogglesCoveredPixels : Prop :=
  ∀ (s : State) (x y : RegIdx) (n : BitVec 4), spriteInRange s n →
    decodeWord (wordXYN 0xD x y n.toNat) = some (.drw x y n) ∧
    ∃ t, exec (.drw x y n) s = .next t ∧ t = { s with V := t.V, Pix := t.Pix } ∧ OtherRegs 15 s t ∧
      (∀ px py, px < 64 → py < 32 → t.Pix.pixel px py = (s.Pix.pixel px py ^^ drawCovers s x y n px py)) ∧
      ((∃ px py, px < 64 ∧ py < 32 ∧ drawCovers s x y n px py = true ∧ s.Pix.pixel px py = true) → t.reg 15 = 1) ∧
      ((¬ ∃ px py, px < 64 ∧ py < 32 ∧ drawCovers s x y n px py = true ∧ s.Pix.pixel px py = true) → t.reg 15 = 0)

/-- DRW with a sprite byte out of range, clipped row or not, latches MEM_BOUNDS at the first such address before VF or any
pixel changes (the spec's decisions D5, D8). -/
def Obligations.DrawOutOfRangeLatches : Prop :=
  ∀ (s : State) (x y : RegIdx) (n : BitVec 4), ¬ spriteInRange s n →
    exec (.drw x y n) s =
      .next { s with rs := .fault .memBounds (if 4096 ≤ s.I.toNat then s.I.toNat else 4096) }

/-- The same sprite drawn twice at the same place restores every pixel, and VF after the second draw is 1 exactly when a
covered pixel of the grid was off before the first. -/
def Obligations.DoubleDrawRestores : Prop :=
  ∀ (s t u : State) (x y : RegIdx) (n : BitVec 4), spriteInRange s n → exec (.drw x y n) s = .next t →
    u.Pix = t.Pix → u.I = s.I → u.reg x = s.reg x → u.reg y = s.reg y →
    (∀ r, r < n.toNat → u.byteAt (s.I.toNat + r) = s.byteAt (s.I.toNat + r)) →
    ∃ w, exec (.drw x y n) u = .next w ∧ w.Pix = s.Pix ∧
      ((∃ px py, px < 64 ∧ py < 32 ∧ drawCovers s x y n px py = true ∧ s.Pix.pixel px py = false) → w.reg 15 = 1) ∧
      ((¬ ∃ px py, px < 64 ∧ py < 32 ∧ drawCovers s x y n px py = true ∧ s.Pix.pixel px py = false) → w.reg 15 = 0)

/-! ## Keyboard and timers (spec/45_keyboard_timers.md) -/

/-- `record_event(e)` (R222): the event's own timestamp for its key, whatever was there; the toggle flag flipped; the quit
flag set; nothing else. -/
def Obligations.RecordEventUpdatesKeyboard : Prop :=
  ∀ s : State,
    (∀ k ts, (recordEvent (.char k ts) s).pressTime k = some ts ∧
      (∀ j, j ≠ k → (recordEvent (.char k ts) s).pressTime j = s.pressTime j) ∧
      recordEvent (.char k ts) s = { s with lastPress := (recordEvent (.char k ts) s).lastPress }) ∧
    (∀ ts, recordEvent (.toggle ts) s = { s with kbToggle := !s.kbToggle }) ∧
    ∀ ts, recordEvent (.quit ts) s = { s with kbQuit := true }

/-- `DrainEvents()` (R223): with no quit queued every event is recorded in arrival order and the queue is left empty; with
one, the events up to and including the first quit are recorded and those behind it stay in the queue; after a quit
nothing is taken. A step drains exactly where no wait is pending (R102 step b, R104). -/
def Obligations.DrainRecordsInOrder : Prop :=
  ∀ s : State,
    (s.wait = none → pollInput s = drainEvents s) ∧
    (s.kbQuit = false → (∀ e ∈ s.Q, isQuit e = false) →
      drainEvents s = { s.Q.foldl (fun u e => recordEvent e u) s with Q := [] }) ∧
    (∀ before ts behind, s.kbQuit = false → (∀ e ∈ before, isQuit e = false) →
      s.Q = before ++ .quit ts :: behind →
      drainEvents s = { before.foldl (fun u e => recordEvent e u) s with kbQuit := true, Q := behind }) ∧
    (s.kbQuit = true → drainEvents s = s)

/-- `is_held(k, now)` (R224): strictly within the window after the key's last press, a press later than `now` counting as
held, a key never pressed not held. -/
def Obligations.HeldWithinWindow : Prop :=
  ∀ (s : State) (k : Key),
    (s.pressTime k = none → s.isHeld k = false) ∧
    ∀ ts, s.pressTime k = some ts → (s.isHeld k = true ↔ s.env.now < ts + s.params.heldWindow)

/-- `ResolveWait()`: character events before the request are dropped without a trace; the first other event decides, a
character event by writing its value to the destination and clearing the request, a toggle or a quit by its flag, and the
events behind it stay queued; with none the queue is left empty; after a quit nothing is taken (C2, the spec's decision
D13). A step attempts it exactly where a wait is pending (R102 step a, R103). -/
def Obligations.WaitResolvesOnQualifyingKey : Prop :=
  ∀ (s : State) (w : WaitRequest),
    (s.wait = some w → pollInput s = resolveWait w s) ∧
    (s.kbQuit = true → resolveWait w s = s) ∧
    ∀ before behind : List Event, s.kbQuit = false → (∀ e ∈ before, early w e = true) →
      (s.Q = before → resolveWait w s = { s with Q := [] }) ∧
      (∀ k ts, w.validAfter ≤ ts → s.Q = before ++ .char k ts :: behind →
        ∃ t, resolveWait w s = t ∧ (t.reg w.dest).toNat = k.val ∧ OtherRegs w.dest s t ∧
          t = { s with V := t.V, wait := none, Q := behind }) ∧
      (∀ ts, s.Q = before ++ .toggle ts :: behind →
        resolveWait w s = { s with kbToggle := !s.kbToggle, Q := behind }) ∧
      (∀ ts, s.Q = before ++ .quit ts :: behind → resolveWait w s = { s with kbQuit := true, Q := behind })

/-- SKP Vx and SKNP Vx: the whole of Vx is the key number; up to 15 the skip is taken as the key is held or not; above 15
KEY_INDEX is latched with the number (the spec's decision D10). -/
def Obligations.KeySkips : Prop :=
  ∀ (s : State) (x : RegIdx),
    decodeWord (wordXKK 0xE x 0x9E) = some (.skp x) ∧ decodeWord (wordXKK 0xE x 0xA1) = some (.sknp x) ∧
    (∀ k : Key, (s.reg x).toNat = k.val →
      (s.isHeld k = true → exec (.skp x) s = .next { s with pc := s.pc + 2 } ∧ exec (.sknp x) s = .next s) ∧
      (s.isHeld k = false → exec (.skp x) s = .next s ∧ exec (.sknp x) s = .next { s with pc := s.pc + 2 })) ∧
    (15 < (s.reg x).toNat →
      exec (.skp x) s = .next { s with rs := .fault .keyIndex (s.reg x).toNat } ∧
      exec (.sknp x) s = .next { s with rs := .fault .keyIndex (s.reg x).toNat })

/-- LD Vx, K (R229): a wait request for register x valid from the step's own clock sample; no register is written. -/
def Obligations.WaitForKeyMakesRequest : Prop :=
  ∀ (s : State) (x : RegIdx), decodeWord (wordXKK 0xF x 0x0A) = some (.ldVxK x) ∧
    exec (.ldVxK x) s = .next { s with wait := some { dest := x, validAfter := s.env.now } }

/-- LD Vx, DT (R232), LD DT, Vx (R233), LD ST, Vx (R234): each moves the byte and changes nothing else. -/
def Obligations.TimerMoves : Prop :=
  ∀ (s : State) (x : RegIdx),
    decodeWord (wordXKK 0xF x 0x07) = some (.ldVxDT x) ∧ decodeWord (wordXKK 0xF x 0x15) = some (.ldDTVx x) ∧
    decodeWord (wordXKK 0xF x 0x18) = some (.ldSTVx x) ∧
    (∃ t, exec (.ldVxDT x) s = .next t ∧ t.reg x = s.DT ∧ OtherRegs x s t ∧ OnlyRegs s t) ∧
    exec (.ldDTVx x) s = .next { s with DT := s.reg x } ∧
    exec (.ldSTVx x) s = .next { s with ST := s.reg x }

/-! ## What each instruction leaves alone (spec/10_state.md R23, R46; the spec's decision D23) -/

/-- No instruction writes a register but those R23 lists for it; VF is written as a flag by the six that write it alone. -/
def Obligations.RegistersWrittenAsListed : Prop :=
  ∀ (i : Instr) (s t : State) (j : RegIdx), exec i s = .next t → mayWriteReg j i = false → t.reg j = s.reg j

/-- No byte of memory changes but the bytes Fx33 and Fx55 store to, `I` plus 0 to 2 and `I` plus 0 to x. -/
def Obligations.BytesWrittenAsAddressed : Prop :=
  ∀ (i : Instr) (s t : State) (a : Nat), s.memWf = true → exec i s = .next t → ¬ mayStore s a i →
    t.byteAt a = s.byteAt a

/-- The display changes by 00E0 and Dxyn only, `I` by Annn, Fx1E and Fx29 only, each timer by its own load only, the stack
by 2nnn and 00EE only, the wait request by Fx0A only, and draws are made by Cxkk only. -/
def Obligations.UnlistedStateIsUnchanged : Prop :=
  ∀ (i : Instr) (s t : State), exec i s = .next t →
    (match i with | .cls | .drw _ _ _ => True | _ => t.Pix = s.Pix) ∧
    (match i with | .ldI _ | .addI _ | .ldF _ => True | _ => t.I = s.I) ∧
    (match i with | .ldDTVx _ => True | _ => t.DT = s.DT) ∧
    (match i with | .ldSTVx _ => True | _ => t.ST = s.ST) ∧
    (match i with | .call _ | .ret => True | _ => t.stack = s.stack) ∧
    (match i with | .ldVxK _ => True | _ => t.wait = s.wait) ∧
    (match i with | .rnd _ _ => True | _ => t.env = s.env)

/-- No instruction touches the keyboard's state, the queue, the paused mark, the phase, the mark of a load, the
parameters or the output, none ends the run, and only the seven that can fault latch a fault. -/
def Obligations.ControlStateIsNotTheProgrammers : Prop :=
  ∀ (i : Instr) (s t : State), exec i s = .next t →
    t.lastPress = s.lastPress ∧ t.kbQuit = s.kbQuit ∧ t.kbToggle = s.kbToggle ∧ t.Q = s.Q ∧ t.paused = s.paused ∧
    t.phase = s.phase ∧ t.loaded = s.loaded ∧ t.params = s.params ∧ t.out = s.out ∧
    (match i with
      | .ret => t.rs = s.rs ∨ t.rs = .fault .stackEmpty 0
      | .skp x | .sknp x => t.rs = s.rs ∨ t.rs = .fault .keyIndex (s.reg x).toNat
      | .drw _ _ _ | .ldB _ | .storeRegs _ | .loadRegs _ => t.rs = s.rs ∨ ∃ a, 4096 ≤ a ∧ t.rs = .fault .memBounds a
      | _ => t.rs = s.rs)
end

