-- ==== Sys2Proof/Laws/State.lean ====
section
/-! SUPPORT. What each update of the state does to each field, once and by rfl, so that no later proof unfolds a record
update; and what the updates do to a register. -/
namespace Sys2Proof.Machine

@[simp] theorem memSize_eq : Config.memSize = 4096 := rfl
@[simp] theorem loadBase_eq : Config.loadBase = 512 := rfl
@[simp] theorem dispW_eq : Config.dispW = 64 := rfl
@[simp] theorem dispH_eq : Config.dispH = 32 := rfl

@[simp] theorem setVF_eq (s : State) (b : Byte) : s.setVF b = s.setReg vf b := rfl
@[simp] theorem advancePc_eq (s : State) : s.advancePc = s.setPc (s.pc + 2) := rfl

/-! ## setReg -/

@[simp] theorem setReg_V (s : State) (i : RegIdx) (b : Byte) : (s.setReg i b).V = s.V.set i.val b i.isLt := rfl
@[simp] theorem setReg_I (s : State) (i : RegIdx) (b : Byte) : (s.setReg i b).I = s.I := rfl
@[simp] theorem setReg_pc (s : State) (i : RegIdx) (b : Byte) : (s.setReg i b).pc = s.pc := rfl
@[simp] theorem setReg_stack (s : State) (i : RegIdx) (b : Byte) : (s.setReg i b).stack = s.stack := rfl
@[simp] theorem setReg_mem (s : State) (i : RegIdx) (b : Byte) : (s.setReg i b).mem = s.mem := rfl
@[simp] theorem setReg_DT (s : State) (i : RegIdx) (b : Byte) : (s.setReg i b).DT = s.DT := rfl
@[simp] theorem setReg_ST (s : State) (i : RegIdx) (b : Byte) : (s.setReg i b).ST = s.ST := rfl
@[simp] theorem setReg_Pix (s : State) (i : RegIdx) (b : Byte) : (s.setReg i b).Pix = s.Pix := rfl
@[simp] theorem setReg_lastPress (s : State) (i : RegIdx) (b : Byte) : (s.setReg i b).lastPress = s.lastPress := rfl
@[simp] theorem setReg_kbQuit (s : State) (i : RegIdx) (b : Byte) : (s.setReg i b).kbQuit = s.kbQuit := rfl
@[simp] theorem setReg_kbToggle (s : State) (i : RegIdx) (b : Byte) : (s.setReg i b).kbToggle = s.kbToggle := rfl
@[simp] theorem setReg_Q (s : State) (i : RegIdx) (b : Byte) : (s.setReg i b).Q = s.Q := rfl
@[simp] theorem setReg_wait (s : State) (i : RegIdx) (b : Byte) : (s.setReg i b).wait = s.wait := rfl
@[simp] theorem setReg_paused (s : State) (i : RegIdx) (b : Byte) : (s.setReg i b).paused = s.paused := rfl
@[simp] theorem setReg_rs (s : State) (i : RegIdx) (b : Byte) : (s.setReg i b).rs = s.rs := rfl
@[simp] theorem setReg_phase (s : State) (i : RegIdx) (b : Byte) : (s.setReg i b).phase = s.phase := rfl
@[simp] theorem setReg_loaded (s : State) (i : RegIdx) (b : Byte) : (s.setReg i b).loaded = s.loaded := rfl
@[simp] theorem setReg_params (s : State) (i : RegIdx) (b : Byte) : (s.setReg i b).params = s.params := rfl
@[simp] theorem setReg_env (s : State) (i : RegIdx) (b : Byte) : (s.setReg i b).env = s.env := rfl
@[simp] theorem setReg_out (s : State) (i : RegIdx) (b : Byte) : (s.setReg i b).out = s.out := rfl
@[simp] theorem setReg_byteAt (s : State) (i : RegIdx) (b : Byte) (a : Nat) : (s.setReg i b).byteAt a = s.byteAt a := rfl
@[simp] theorem setReg_memWf (s : State) (i : RegIdx) (b : Byte) : (s.setReg i b).memWf = s.memWf := rfl

/-! ## setI -/

@[simp] theorem setI_V (s : State) (w : Word) : (s.setI w).V = s.V := rfl
@[simp] theorem setI_I (s : State) (w : Word) : (s.setI w).I = w := rfl
@[simp] theorem setI_pc (s : State) (w : Word) : (s.setI w).pc = s.pc := rfl
@[simp] theorem setI_stack (s : State) (w : Word) : (s.setI w).stack = s.stack := rfl
@[simp] theorem setI_mem (s : State) (w : Word) : (s.setI w).mem = s.mem := rfl
@[simp] theorem setI_DT (s : State) (w : Word) : (s.setI w).DT = s.DT := rfl
@[simp] theorem setI_ST (s : State) (w : Word) : (s.setI w).ST = s.ST := rfl
@[simp] theorem setI_Pix (s : State) (w : Word) : (s.setI w).Pix = s.Pix := rfl
@[simp] theorem setI_lastPress (s : State) (w : Word) : (s.setI w).lastPress = s.lastPress := rfl
@[simp] theorem setI_kbQuit (s : State) (w : Word) : (s.setI w).kbQuit = s.kbQuit := rfl
@[simp] theorem setI_kbToggle (s : State) (w : Word) : (s.setI w).kbToggle = s.kbToggle := rfl
@[simp] theorem setI_Q (s : State) (w : Word) : (s.setI w).Q = s.Q := rfl
@[simp] theorem setI_wait (s : State) (w : Word) : (s.setI w).wait = s.wait := rfl
@[simp] theorem setI_paused (s : State) (w : Word) : (s.setI w).paused = s.paused := rfl
@[simp] theorem setI_rs (s : State) (w : Word) : (s.setI w).rs = s.rs := rfl
@[simp] theorem setI_phase (s : State) (w : Word) : (s.setI w).phase = s.phase := rfl
@[simp] theorem setI_loaded (s : State) (w : Word) : (s.setI w).loaded = s.loaded := rfl
@[simp] theorem setI_params (s : State) (w : Word) : (s.setI w).params = s.params := rfl
@[simp] theorem setI_env (s : State) (w : Word) : (s.setI w).env = s.env := rfl
@[simp] theorem setI_out (s : State) (w : Word) : (s.setI w).out = s.out := rfl
@[simp] theorem setI_byteAt (s : State) (w : Word) (a : Nat) : (s.setI w).byteAt a = s.byteAt a := rfl
@[simp] theorem setI_memWf (s : State) (w : Word) : (s.setI w).memWf = s.memWf := rfl
@[simp] theorem setI_reg (s : State) (w : Word) (j : RegIdx) : (s.setI w).reg j = s.reg j := rfl

/-! ## setPc -/

@[simp] theorem setPc_V (s : State) (w : Word) : (s.setPc w).V = s.V := rfl
@[simp] theorem setPc_I (s : State) (w : Word) : (s.setPc w).I = s.I := rfl
@[simp] theorem setPc_pc (s : State) (w : Word) : (s.setPc w).pc = w := rfl
@[simp] theorem setPc_stack (s : State) (w : Word) : (s.setPc w).stack = s.stack := rfl
@[simp] theorem setPc_mem (s : State) (w : Word) : (s.setPc w).mem = s.mem := rfl
@[simp] theorem setPc_DT (s : State) (w : Word) : (s.setPc w).DT = s.DT := rfl
@[simp] theorem setPc_ST (s : State) (w : Word) : (s.setPc w).ST = s.ST := rfl
@[simp] theorem setPc_Pix (s : State) (w : Word) : (s.setPc w).Pix = s.Pix := rfl
@[simp] theorem setPc_lastPress (s : State) (w : Word) : (s.setPc w).lastPress = s.lastPress := rfl
@[simp] theorem setPc_kbQuit (s : State) (w : Word) : (s.setPc w).kbQuit = s.kbQuit := rfl
@[simp] theorem setPc_kbToggle (s : State) (w : Word) : (s.setPc w).kbToggle = s.kbToggle := rfl
@[simp] theorem setPc_Q (s : State) (w : Word) : (s.setPc w).Q = s.Q := rfl
@[simp] theorem setPc_wait (s : State) (w : Word) : (s.setPc w).wait = s.wait := rfl
@[simp] theorem setPc_paused (s : State) (w : Word) : (s.setPc w).paused = s.paused := rfl
@[simp] theorem setPc_rs (s : State) (w : Word) : (s.setPc w).rs = s.rs := rfl
@[simp] theorem setPc_phase (s : State) (w : Word) : (s.setPc w).phase = s.phase := rfl
@[simp] theorem setPc_loaded (s : State) (w : Word) : (s.setPc w).loaded = s.loaded := rfl
@[simp] theorem setPc_params (s : State) (w : Word) : (s.setPc w).params = s.params := rfl
@[simp] theorem setPc_env (s : State) (w : Word) : (s.setPc w).env = s.env := rfl
@[simp] theorem setPc_out (s : State) (w : Word) : (s.setPc w).out = s.out := rfl
@[simp] theorem setPc_byteAt (s : State) (w : Word) (a : Nat) : (s.setPc w).byteAt a = s.byteAt a := rfl
@[simp] theorem setPc_memWf (s : State) (w : Word) : (s.setPc w).memWf = s.memWf := rfl
@[simp] theorem setPc_reg (s : State) (w : Word) (j : RegIdx) : (s.setPc w).reg j = s.reg j := rfl

/-! ## push -/

@[simp] theorem push_V (s : State) (w : Word) : (s.push w).V = s.V := rfl
@[simp] theorem push_I (s : State) (w : Word) : (s.push w).I = s.I := rfl
@[simp] theorem push_pc (s : State) (w : Word) : (s.push w).pc = s.pc := rfl
@[simp] theorem push_stack (s : State) (w : Word) : (s.push w).stack = w :: s.stack := rfl
@[simp] theorem push_mem (s : State) (w : Word) : (s.push w).mem = s.mem := rfl
@[simp] theorem push_DT (s : State) (w : Word) : (s.push w).DT = s.DT := rfl
@[simp] theorem push_ST (s : State) (w : Word) : (s.push w).ST = s.ST := rfl
@[simp] theorem push_Pix (s : State) (w : Word) : (s.push w).Pix = s.Pix := rfl
@[simp] theorem push_lastPress (s : State) (w : Word) : (s.push w).lastPress = s.lastPress := rfl
@[simp] theorem push_kbQuit (s : State) (w : Word) : (s.push w).kbQuit = s.kbQuit := rfl
@[simp] theorem push_kbToggle (s : State) (w : Word) : (s.push w).kbToggle = s.kbToggle := rfl
@[simp] theorem push_Q (s : State) (w : Word) : (s.push w).Q = s.Q := rfl
@[simp] theorem push_wait (s : State) (w : Word) : (s.push w).wait = s.wait := rfl
@[simp] theorem push_paused (s : State) (w : Word) : (s.push w).paused = s.paused := rfl
@[simp] theorem push_rs (s : State) (w : Word) : (s.push w).rs = s.rs := rfl
@[simp] theorem push_phase (s : State) (w : Word) : (s.push w).phase = s.phase := rfl
@[simp] theorem push_loaded (s : State) (w : Word) : (s.push w).loaded = s.loaded := rfl
@[simp] theorem push_params (s : State) (w : Word) : (s.push w).params = s.params := rfl
@[simp] theorem push_env (s : State) (w : Word) : (s.push w).env = s.env := rfl
@[simp] theorem push_out (s : State) (w : Word) : (s.push w).out = s.out := rfl
@[simp] theorem push_byteAt (s : State) (w : Word) (a : Nat) : (s.push w).byteAt a = s.byteAt a := rfl
@[simp] theorem push_memWf (s : State) (w : Word) : (s.push w).memWf = s.memWf := rfl
@[simp] theorem push_reg (s : State) (w : Word) (j : RegIdx) : (s.push w).reg j = s.reg j := rfl

/-! ## setStack -/

@[simp] theorem setStack_V (s : State) (l : List Word) : (s.setStack l).V = s.V := rfl
@[simp] theorem setStack_I (s : State) (l : List Word) : (s.setStack l).I = s.I := rfl
@[simp] theorem setStack_pc (s : State) (l : List Word) : (s.setStack l).pc = s.pc := rfl
@[simp] theorem setStack_stack (s : State) (l : List Word) : (s.setStack l).stack = l := rfl
@[simp] theorem setStack_mem (s : State) (l : List Word) : (s.setStack l).mem = s.mem := rfl
@[simp] theorem setStack_DT (s : State) (l : List Word) : (s.setStack l).DT = s.DT := rfl
@[simp] theorem setStack_ST (s : State) (l : List Word) : (s.setStack l).ST = s.ST := rfl
@[simp] theorem setStack_Pix (s : State) (l : List Word) : (s.setStack l).Pix = s.Pix := rfl
@[simp] theorem setStack_lastPress (s : State) (l : List Word) : (s.setStack l).lastPress = s.lastPress := rfl
@[simp] theorem setStack_kbQuit (s : State) (l : List Word) : (s.setStack l).kbQuit = s.kbQuit := rfl
@[simp] theorem setStack_kbToggle (s : State) (l : List Word) : (s.setStack l).kbToggle = s.kbToggle := rfl
@[simp] theorem setStack_Q (s : State) (l : List Word) : (s.setStack l).Q = s.Q := rfl
@[simp] theorem setStack_wait (s : State) (l : List Word) : (s.setStack l).wait = s.wait := rfl
@[simp] theorem setStack_paused (s : State) (l : List Word) : (s.setStack l).paused = s.paused := rfl
@[simp] theorem setStack_rs (s : State) (l : List Word) : (s.setStack l).rs = s.rs := rfl
@[simp] theorem setStack_phase (s : State) (l : List Word) : (s.setStack l).phase = s.phase := rfl
@[simp] theorem setStack_loaded (s : State) (l : List Word) : (s.setStack l).loaded = s.loaded := rfl
@[simp] theorem setStack_params (s : State) (l : List Word) : (s.setStack l).params = s.params := rfl
@[simp] theorem setStack_env (s : State) (l : List Word) : (s.setStack l).env = s.env := rfl
@[simp] theorem setStack_out (s : State) (l : List Word) : (s.setStack l).out = s.out := rfl
@[simp] theorem setStack_byteAt (s : State) (l : List Word) (a : Nat) : (s.setStack l).byteAt a = s.byteAt a := rfl
@[simp] theorem setStack_memWf (s : State) (l : List Word) : (s.setStack l).memWf = s.memWf := rfl
@[simp] theorem setStack_reg (s : State) (l : List Word) (j : RegIdx) : (s.setStack l).reg j = s.reg j := rfl

/-! ## storeByte -/

@[simp] theorem storeByte_V (s : State) (a : Nat) (b : Byte) : (s.storeByte a b).V = s.V := rfl
@[simp] theorem storeByte_I (s : State) (a : Nat) (b : Byte) : (s.storeByte a b).I = s.I := rfl
@[simp] theorem storeByte_pc (s : State) (a : Nat) (b : Byte) : (s.storeByte a b).pc = s.pc := rfl
@[simp] theorem storeByte_stack (s : State) (a : Nat) (b : Byte) : (s.storeByte a b).stack = s.stack := rfl
@[simp] theorem storeByte_mem (s : State) (a : Nat) (b : Byte) : (s.storeByte a b).mem = s.mem.write s.params.font a b := rfl
@[simp] theorem storeByte_DT (s : State) (a : Nat) (b : Byte) : (s.storeByte a b).DT = s.DT := rfl
@[simp] theorem storeByte_ST (s : State) (a : Nat) (b : Byte) : (s.storeByte a b).ST = s.ST := rfl
@[simp] theorem storeByte_Pix (s : State) (a : Nat) (b : Byte) : (s.storeByte a b).Pix = s.Pix := rfl
@[simp] theorem storeByte_lastPress (s : State) (a : Nat) (b : Byte) : (s.storeByte a b).lastPress = s.lastPress := rfl
@[simp] theorem storeByte_kbQuit (s : State) (a : Nat) (b : Byte) : (s.storeByte a b).kbQuit = s.kbQuit := rfl
@[simp] theorem storeByte_kbToggle (s : State) (a : Nat) (b : Byte) : (s.storeByte a b).kbToggle = s.kbToggle := rfl
@[simp] theorem storeByte_Q (s : State) (a : Nat) (b : Byte) : (s.storeByte a b).Q = s.Q := rfl
@[simp] theorem storeByte_wait (s : State) (a : Nat) (b : Byte) : (s.storeByte a b).wait = s.wait := rfl
@[simp] theorem storeByte_paused (s : State) (a : Nat) (b : Byte) : (s.storeByte a b).paused = s.paused := rfl
@[simp] theorem storeByte_rs (s : State) (a : Nat) (b : Byte) : (s.storeByte a b).rs = s.rs := rfl
@[simp] theorem storeByte_phase (s : State) (a : Nat) (b : Byte) : (s.storeByte a b).phase = s.phase := rfl
@[simp] theorem storeByte_loaded (s : State) (a : Nat) (b : Byte) : (s.storeByte a b).loaded = s.loaded := rfl
@[simp] theorem storeByte_params (s : State) (a : Nat) (b : Byte) : (s.storeByte a b).params = s.params := rfl
@[simp] theorem storeByte_env (s : State) (a : Nat) (b : Byte) : (s.storeByte a b).env = s.env := rfl
@[simp] theorem storeByte_out (s : State) (a : Nat) (b : Byte) : (s.storeByte a b).out = s.out := rfl
@[simp] theorem storeByte_reg (s : State) (a : Nat) (b : Byte) (j : RegIdx) : (s.storeByte a b).reg j = s.reg j := rfl

/-! ## setDT -/

@[simp] theorem setDT_V (s : State) (b : Byte) : (s.setDT b).V = s.V := rfl
@[simp] theorem setDT_I (s : State) (b : Byte) : (s.setDT b).I = s.I := rfl
@[simp] theorem setDT_pc (s : State) (b : Byte) : (s.setDT b).pc = s.pc := rfl
@[simp] theorem setDT_stack (s : State) (b : Byte) : (s.setDT b).stack = s.stack := rfl
@[simp] theorem setDT_mem (s : State) (b : Byte) : (s.setDT b).mem = s.mem := rfl
@[simp] theorem setDT_DT (s : State) (b : Byte) : (s.setDT b).DT = b := rfl
@[simp] theorem setDT_ST (s : State) (b : Byte) : (s.setDT b).ST = s.ST := rfl
@[simp] theorem setDT_Pix (s : State) (b : Byte) : (s.setDT b).Pix = s.Pix := rfl
@[simp] theorem setDT_lastPress (s : State) (b : Byte) : (s.setDT b).lastPress = s.lastPress := rfl
@[simp] theorem setDT_kbQuit (s : State) (b : Byte) : (s.setDT b).kbQuit = s.kbQuit := rfl
@[simp] theorem setDT_kbToggle (s : State) (b : Byte) : (s.setDT b).kbToggle = s.kbToggle := rfl
@[simp] theorem setDT_Q (s : State) (b : Byte) : (s.setDT b).Q = s.Q := rfl
@[simp] theorem setDT_wait (s : State) (b : Byte) : (s.setDT b).wait = s.wait := rfl
@[simp] theorem setDT_paused (s : State) (b : Byte) : (s.setDT b).paused = s.paused := rfl
@[simp] theorem setDT_rs (s : State) (b : Byte) : (s.setDT b).rs = s.rs := rfl
@[simp] theorem setDT_phase (s : State) (b : Byte) : (s.setDT b).phase = s.phase := rfl
@[simp] theorem setDT_loaded (s : State) (b : Byte) : (s.setDT b).loaded = s.loaded := rfl
@[simp] theorem setDT_params (s : State) (b : Byte) : (s.setDT b).params = s.params := rfl
@[simp] theorem setDT_env (s : State) (b : Byte) : (s.setDT b).env = s.env := rfl
@[simp] theorem setDT_out (s : State) (b : Byte) : (s.setDT b).out = s.out := rfl
@[simp] theorem setDT_byteAt (s : State) (b : Byte) (a : Nat) : (s.setDT b).byteAt a = s.byteAt a := rfl
@[simp] theorem setDT_memWf (s : State) (b : Byte) : (s.setDT b).memWf = s.memWf := rfl
@[simp] theorem setDT_reg (s : State) (b : Byte) (j : RegIdx) : (s.setDT b).reg j = s.reg j := rfl

/-! ## setST -/

@[simp] theorem setST_V (s : State) (b : Byte) : (s.setST b).V = s.V := rfl
@[simp] theorem setST_I (s : State) (b : Byte) : (s.setST b).I = s.I := rfl
@[simp] theorem setST_pc (s : State) (b : Byte) : (s.setST b).pc = s.pc := rfl
@[simp] theorem setST_stack (s : State) (b : Byte) : (s.setST b).stack = s.stack := rfl
@[simp] theorem setST_mem (s : State) (b : Byte) : (s.setST b).mem = s.mem := rfl
@[simp] theorem setST_DT (s : State) (b : Byte) : (s.setST b).DT = s.DT := rfl
@[simp] theorem setST_ST (s : State) (b : Byte) : (s.setST b).ST = b := rfl
@[simp] theorem setST_Pix (s : State) (b : Byte) : (s.setST b).Pix = s.Pix := rfl
@[simp] theorem setST_lastPress (s : State) (b : Byte) : (s.setST b).lastPress = s.lastPress := rfl
@[simp] theorem setST_kbQuit (s : State) (b : Byte) : (s.setST b).kbQuit = s.kbQuit := rfl
@[simp] theorem setST_kbToggle (s : State) (b : Byte) : (s.setST b).kbToggle = s.kbToggle := rfl
@[simp] theorem setST_Q (s : State) (b : Byte) : (s.setST b).Q = s.Q := rfl
@[simp] theorem setST_wait (s : State) (b : Byte) : (s.setST b).wait = s.wait := rfl
@[simp] theorem setST_paused (s : State) (b : Byte) : (s.setST b).paused = s.paused := rfl
@[simp] theorem setST_rs (s : State) (b : Byte) : (s.setST b).rs = s.rs := rfl
@[simp] theorem setST_phase (s : State) (b : Byte) : (s.setST b).phase = s.phase := rfl
@[simp] theorem setST_loaded (s : State) (b : Byte) : (s.setST b).loaded = s.loaded := rfl
@[simp] theorem setST_params (s : State) (b : Byte) : (s.setST b).params = s.params := rfl
@[simp] theorem setST_env (s : State) (b : Byte) : (s.setST b).env = s.env := rfl
@[simp] theorem setST_out (s : State) (b : Byte) : (s.setST b).out = s.out := rfl
@[simp] theorem setST_byteAt (s : State) (b : Byte) (a : Nat) : (s.setST b).byteAt a = s.byteAt a := rfl
@[simp] theorem setST_memWf (s : State) (b : Byte) : (s.setST b).memWf = s.memWf := rfl
@[simp] theorem setST_reg (s : State) (b : Byte) (j : RegIdx) : (s.setST b).reg j = s.reg j := rfl

/-! ## setPix -/

@[simp] theorem setPix_V (s : State) (d : Display) : (s.setPix d).V = s.V := rfl
@[simp] theorem setPix_I (s : State) (d : Display) : (s.setPix d).I = s.I := rfl
@[simp] theorem setPix_pc (s : State) (d : Display) : (s.setPix d).pc = s.pc := rfl
@[simp] theorem setPix_stack (s : State) (d : Display) : (s.setPix d).stack = s.stack := rfl
@[simp] theorem setPix_mem (s : State) (d : Display) : (s.setPix d).mem = s.mem := rfl
@[simp] theorem setPix_DT (s : State) (d : Display) : (s.setPix d).DT = s.DT := rfl
@[simp] theorem setPix_ST (s : State) (d : Display) : (s.setPix d).ST = s.ST := rfl
@[simp] theorem setPix_Pix (s : State) (d : Display) : (s.setPix d).Pix = d := rfl
@[simp] theorem setPix_lastPress (s : State) (d : Display) : (s.setPix d).lastPress = s.lastPress := rfl
@[simp] theorem setPix_kbQuit (s : State) (d : Display) : (s.setPix d).kbQuit = s.kbQuit := rfl
@[simp] theorem setPix_kbToggle (s : State) (d : Display) : (s.setPix d).kbToggle = s.kbToggle := rfl
@[simp] theorem setPix_Q (s : State) (d : Display) : (s.setPix d).Q = s.Q := rfl
@[simp] theorem setPix_wait (s : State) (d : Display) : (s.setPix d).wait = s.wait := rfl
@[simp] theorem setPix_paused (s : State) (d : Display) : (s.setPix d).paused = s.paused := rfl
@[simp] theorem setPix_rs (s : State) (d : Display) : (s.setPix d).rs = s.rs := rfl
@[simp] theorem setPix_phase (s : State) (d : Display) : (s.setPix d).phase = s.phase := rfl
@[simp] theorem setPix_loaded (s : State) (d : Display) : (s.setPix d).loaded = s.loaded := rfl
@[simp] theorem setPix_params (s : State) (d : Display) : (s.setPix d).params = s.params := rfl
@[simp] theorem setPix_env (s : State) (d : Display) : (s.setPix d).env = s.env := rfl
@[simp] theorem setPix_out (s : State) (d : Display) : (s.setPix d).out = s.out := rfl
@[simp] theorem setPix_byteAt (s : State) (d : Display) (a : Nat) : (s.setPix d).byteAt a = s.byteAt a := rfl
@[simp] theorem setPix_memWf (s : State) (d : Display) : (s.setPix d).memWf = s.memWf := rfl
@[simp] theorem setPix_reg (s : State) (d : Display) (j : RegIdx) : (s.setPix d).reg j = s.reg j := rfl

/-! ## setWait -/

@[simp] theorem setWait_V (s : State) (w : Option WaitRequest) : (s.setWait w).V = s.V := rfl
@[simp] theorem setWait_I (s : State) (w : Option WaitRequest) : (s.setWait w).I = s.I := rfl
@[simp] theorem setWait_pc (s : State) (w : Option WaitRequest) : (s.setWait w).pc = s.pc := rfl
@[simp] theorem setWait_stack (s : State) (w : Option WaitRequest) : (s.setWait w).stack = s.stack := rfl
@[simp] theorem setWait_mem (s : State) (w : Option WaitRequest) : (s.setWait w).mem = s.mem := rfl
@[simp] theorem setWait_DT (s : State) (w : Option WaitRequest) : (s.setWait w).DT = s.DT := rfl
@[simp] theorem setWait_ST (s : State) (w : Option WaitRequest) : (s.setWait w).ST = s.ST := rfl
@[simp] theorem setWait_Pix (s : State) (w : Option WaitRequest) : (s.setWait w).Pix = s.Pix := rfl
@[simp] theorem setWait_lastPress (s : State) (w : Option WaitRequest) : (s.setWait w).lastPress = s.lastPress := rfl
@[simp] theorem setWait_kbQuit (s : State) (w : Option WaitRequest) : (s.setWait w).kbQuit = s.kbQuit := rfl
@[simp] theorem setWait_kbToggle (s : State) (w : Option WaitRequest) : (s.setWait w).kbToggle = s.kbToggle := rfl
@[simp] theorem setWait_Q (s : State) (w : Option WaitRequest) : (s.setWait w).Q = s.Q := rfl
@[simp] theorem setWait_wait (s : State) (w : Option WaitRequest) : (s.setWait w).wait = w := rfl
@[simp] theorem setWait_paused (s : State) (w : Option WaitRequest) : (s.setWait w).paused = s.paused := rfl
@[simp] theorem setWait_rs (s : State) (w : Option WaitRequest) : (s.setWait w).rs = s.rs := rfl
@[simp] theorem setWait_phase (s : State) (w : Option WaitRequest) : (s.setWait w).phase = s.phase := rfl
@[simp] theorem setWait_loaded (s : State) (w : Option WaitRequest) : (s.setWait w).loaded = s.loaded := rfl
@[simp] theorem setWait_params (s : State) (w : Option WaitRequest) : (s.setWait w).params = s.params := rfl
@[simp] theorem setWait_env (s : State) (w : Option WaitRequest) : (s.setWait w).env = s.env := rfl
@[simp] theorem setWait_out (s : State) (w : Option WaitRequest) : (s.setWait w).out = s.out := rfl
@[simp] theorem setWait_byteAt (s : State) (w : Option WaitRequest) (a : Nat) : (s.setWait w).byteAt a = s.byteAt a := rfl
@[simp] theorem setWait_memWf (s : State) (w : Option WaitRequest) : (s.setWait w).memWf = s.memWf := rfl
@[simp] theorem setWait_reg (s : State) (w : Option WaitRequest) (j : RegIdx) : (s.setWait w).reg j = s.reg j := rfl

/-! ## spendDraw -/

@[simp] theorem spendDraw_V (s : State) : (s.spendDraw).V = s.V := rfl
@[simp] theorem spendDraw_I (s : State) : (s.spendDraw).I = s.I := rfl
@[simp] theorem spendDraw_pc (s : State) : (s.spendDraw).pc = s.pc := rfl
@[simp] theorem spendDraw_stack (s : State) : (s.spendDraw).stack = s.stack := rfl
@[simp] theorem spendDraw_mem (s : State) : (s.spendDraw).mem = s.mem := rfl
@[simp] theorem spendDraw_DT (s : State) : (s.spendDraw).DT = s.DT := rfl
@[simp] theorem spendDraw_ST (s : State) : (s.spendDraw).ST = s.ST := rfl
@[simp] theorem spendDraw_Pix (s : State) : (s.spendDraw).Pix = s.Pix := rfl
@[simp] theorem spendDraw_lastPress (s : State) : (s.spendDraw).lastPress = s.lastPress := rfl
@[simp] theorem spendDraw_kbQuit (s : State) : (s.spendDraw).kbQuit = s.kbQuit := rfl
@[simp] theorem spendDraw_kbToggle (s : State) : (s.spendDraw).kbToggle = s.kbToggle := rfl
@[simp] theorem spendDraw_Q (s : State) : (s.spendDraw).Q = s.Q := rfl
@[simp] theorem spendDraw_wait (s : State) : (s.spendDraw).wait = s.wait := rfl
@[simp] theorem spendDraw_paused (s : State) : (s.spendDraw).paused = s.paused := rfl
@[simp] theorem spendDraw_rs (s : State) : (s.spendDraw).rs = s.rs := rfl
@[simp] theorem spendDraw_phase (s : State) : (s.spendDraw).phase = s.phase := rfl
@[simp] theorem spendDraw_loaded (s : State) : (s.spendDraw).loaded = s.loaded := rfl
@[simp] theorem spendDraw_params (s : State) : (s.spendDraw).params = s.params := rfl
@[simp] theorem spendDraw_env (s : State) : (s.spendDraw).env = { s.env with random := s.env.random.tail, draws := s.env.draws + 1 } := rfl
@[simp] theorem spendDraw_out (s : State) : (s.spendDraw).out = s.out := rfl
@[simp] theorem spendDraw_byteAt (s : State) (a : Nat) : (s.spendDraw).byteAt a = s.byteAt a := rfl
@[simp] theorem spendDraw_memWf (s : State) : (s.spendDraw).memWf = s.memWf := rfl
@[simp] theorem spendDraw_reg (s : State) (j : RegIdx) : (s.spendDraw).reg j = s.reg j := rfl

/-! ## latchFault -/

@[simp] theorem latchFault_V (s : State) (c : FaultCause) (n : Nat) : (s.latchFault c n).V = s.V := rfl
@[simp] theorem latchFault_I (s : State) (c : FaultCause) (n : Nat) : (s.latchFault c n).I = s.I := rfl
@[simp] theorem latchFault_pc (s : State) (c : FaultCause) (n : Nat) : (s.latchFault c n).pc = s.pc := rfl
@[simp] theorem latchFault_stack (s : State) (c : FaultCause) (n : Nat) : (s.latchFault c n).stack = s.stack := rfl
@[simp] theorem latchFault_mem (s : State) (c : FaultCause) (n : Nat) : (s.latchFault c n).mem = s.mem := rfl
@[simp] theorem latchFault_DT (s : State) (c : FaultCause) (n : Nat) : (s.latchFault c n).DT = s.DT := rfl
@[simp] theorem latchFault_ST (s : State) (c : FaultCause) (n : Nat) : (s.latchFault c n).ST = s.ST := rfl
@[simp] theorem latchFault_Pix (s : State) (c : FaultCause) (n : Nat) : (s.latchFault c n).Pix = s.Pix := rfl
@[simp] theorem latchFault_lastPress (s : State) (c : FaultCause) (n : Nat) : (s.latchFault c n).lastPress = s.lastPress := rfl
@[simp] theorem latchFault_kbQuit (s : State) (c : FaultCause) (n : Nat) : (s.latchFault c n).kbQuit = s.kbQuit := rfl
@[simp] theorem latchFault_kbToggle (s : State) (c : FaultCause) (n : Nat) : (s.latchFault c n).kbToggle = s.kbToggle := rfl
@[simp] theorem latchFault_Q (s : State) (c : FaultCause) (n : Nat) : (s.latchFault c n).Q = s.Q := rfl
@[simp] theorem latchFault_wait (s : State) (c : FaultCause) (n : Nat) : (s.latchFault c n).wait = s.wait := rfl
@[simp] theorem latchFault_paused (s : State) (c : FaultCause) (n : Nat) : (s.latchFault c n).paused = s.paused := rfl
@[simp] theorem latchFault_rs (s : State) (c : FaultCause) (n : Nat) : (s.latchFault c n).rs = .fault c n := rfl
@[simp] theorem latchFault_phase (s : State) (c : FaultCause) (n : Nat) : (s.latchFault c n).phase = s.phase := rfl
@[simp] theorem latchFault_loaded (s : State) (c : FaultCause) (n : Nat) : (s.latchFault c n).loaded = s.loaded := rfl
@[simp] theorem latchFault_params (s : State) (c : FaultCause) (n : Nat) : (s.latchFault c n).params = s.params := rfl
@[simp] theorem latchFault_env (s : State) (c : FaultCause) (n : Nat) : (s.latchFault c n).env = s.env := rfl
@[simp] theorem latchFault_out (s : State) (c : FaultCause) (n : Nat) : (s.latchFault c n).out = s.out := rfl
@[simp] theorem latchFault_byteAt (s : State) (c : FaultCause) (n : Nat) (a : Nat) : (s.latchFault c n).byteAt a = s.byteAt a := rfl
@[simp] theorem latchFault_memWf (s : State) (c : FaultCause) (n : Nat) : (s.latchFault c n).memWf = s.memWf := rfl
@[simp] theorem latchFault_reg (s : State) (c : FaultCause) (n : Nat) (j : RegIdx) : (s.latchFault c n).reg j = s.reg j := rfl

/-! ## setPaused -/

@[simp] theorem setPaused_V (s : State) (p : Bool) : (s.setPaused p).V = s.V := rfl
@[simp] theorem setPaused_I (s : State) (p : Bool) : (s.setPaused p).I = s.I := rfl
@[simp] theorem setPaused_pc (s : State) (p : Bool) : (s.setPaused p).pc = s.pc := rfl
@[simp] theorem setPaused_stack (s : State) (p : Bool) : (s.setPaused p).stack = s.stack := rfl
@[simp] theorem setPaused_mem (s : State) (p : Bool) : (s.setPaused p).mem = s.mem := rfl
@[simp] theorem setPaused_DT (s : State) (p : Bool) : (s.setPaused p).DT = s.DT := rfl
@[simp] theorem setPaused_ST (s : State) (p : Bool) : (s.setPaused p).ST = s.ST := rfl
@[simp] theorem setPaused_Pix (s : State) (p : Bool) : (s.setPaused p).Pix = s.Pix := rfl
@[simp] theorem setPaused_lastPress (s : State) (p : Bool) : (s.setPaused p).lastPress = s.lastPress := rfl
@[simp] theorem setPaused_kbQuit (s : State) (p : Bool) : (s.setPaused p).kbQuit = s.kbQuit := rfl
@[simp] theorem setPaused_kbToggle (s : State) (p : Bool) : (s.setPaused p).kbToggle = s.kbToggle := rfl
@[simp] theorem setPaused_Q (s : State) (p : Bool) : (s.setPaused p).Q = s.Q := rfl
@[simp] theorem setPaused_wait (s : State) (p : Bool) : (s.setPaused p).wait = s.wait := rfl
@[simp] theorem setPaused_paused (s : State) (p : Bool) : (s.setPaused p).paused = p := rfl
@[simp] theorem setPaused_rs (s : State) (p : Bool) : (s.setPaused p).rs = s.rs := rfl
@[simp] theorem setPaused_phase (s : State) (p : Bool) : (s.setPaused p).phase = s.phase := rfl
@[simp] theorem setPaused_loaded (s : State) (p : Bool) : (s.setPaused p).loaded = s.loaded := rfl
@[simp] theorem setPaused_params (s : State) (p : Bool) : (s.setPaused p).params = s.params := rfl
@[simp] theorem setPaused_env (s : State) (p : Bool) : (s.setPaused p).env = s.env := rfl
@[simp] theorem setPaused_out (s : State) (p : Bool) : (s.setPaused p).out = s.out := rfl
@[simp] theorem setPaused_byteAt (s : State) (p : Bool) (a : Nat) : (s.setPaused p).byteAt a = s.byteAt a := rfl
@[simp] theorem setPaused_memWf (s : State) (p : Bool) : (s.setPaused p).memWf = s.memWf := rfl
@[simp] theorem setPaused_reg (s : State) (p : Bool) (j : RegIdx) : (s.setPaused p).reg j = s.reg j := rfl

/-! ## Registers -/

theorem reg_setReg (s : State) (i j : RegIdx) (b : Byte) : (s.setReg i b).reg j = if j = i then b else s.reg j := by
  by_cases h : j = i
  · subst h; simp [State.reg]
  · have : i.val ≠ j.val := fun e => h (Fin.ext e.symm)
    simp [State.reg, this, h]

@[simp] theorem reg_setReg_self (s : State) (i : RegIdx) (b : Byte) : (s.setReg i b).reg i = b := by
  simp [reg_setReg]

theorem reg_setReg_ne (s : State) {i j : RegIdx} (b : Byte) (h : j ≠ i) : (s.setReg i b).reg j = s.reg j := by
  simp [reg_setReg, h]

/-- States that agree on all registers and on every other field are equal: registers are known by their reads. -/
theorem V_ext {s t : State} (h : ∀ j, s.reg j = t.reg j) : s.V = t.V :=
  Vector.ext fun i hi => h ⟨i, hi⟩

end Sys2Proof.Machine
end

