-- ==== Sys2Proof/Laws/Memory.lean ====
section
/-! SUPPORT. The laws of memory: a read after a write, and that every memory operation keeps the canonical form
(spec/20_memory.md R60, R69), whatever the parameter FONT is. -/
namespace Sys2Proof.Machine

/-! ## The list of bytes -/

theorem wfFrom_cons {font : Config.Font} {lo k : Nat} {v : Byte} {m : Memory} :
    Memory.wfFrom font lo ((k, v) :: m) = true ↔
      lo ≤ k ∧ k < 4096 ∧ v ≠ Memory.background font k ∧ Memory.wfFrom font (k + 1) m = true := by
  simp only [Memory.wfFrom, Bool.and_eq_true, decide_eq_true_eq, and_assoc]
  exact Iff.rfl

theorem wfFrom_mono {font : Config.Font} {lo lo' : Nat} (h : lo' ≤ lo) :
    ∀ {m : Memory}, Memory.wfFrom font lo m = true → Memory.wfFrom font lo' m = true
  | [], _ => rfl
  | (_, _) :: _, hm => by
    rw [wfFrom_cons] at hm ⊢
    exact ⟨by omega, hm.2⟩

/-- Below its first address a canonical memory lists nothing. -/
theorem read_below {font : Config.Font} {lo a : Nat} (h : a < lo) :
    ∀ {m : Memory}, Memory.wfFrom font lo m = true → m.read font a = Memory.background font a
  | [], _ => rfl
  | (k, v) :: m, hm => by
    obtain ⟨hlo, -, -, hm⟩ := wfFrom_cons.1 hm
    rw [Memory.read, if_neg (by omega)]
    exact read_below (by omega) hm

theorem wfFrom_consCell {font : Config.Font} {lo a : Nat} {b : Byte} {m : Memory} (hlo : lo ≤ a) (ha : a < 4096)
    (hm : Memory.wfFrom font (a + 1) m = true) : Memory.wfFrom font lo (m.consCell font a b) = true := by
  unfold Memory.consCell
  split
  · exact wfFrom_mono (by omega) hm
  · next hb => exact wfFrom_cons.2 ⟨hlo, ha, hb, hm⟩

theorem wfFrom_write {font : Config.Font} {a : Nat} (ha : a < 4096) (b : Byte) : ∀ {lo : Nat} {m : Memory}, lo ≤ a →
    Memory.wfFrom font lo m = true → Memory.wfFrom font lo (m.write font a b) = true
  | _, [], hlo, _ => wfFrom_consCell hlo ha rfl
  | lo, (k, v) :: m, hlo, hm => by
    obtain ⟨hk, hk', hv, hm'⟩ := wfFrom_cons.1 hm
    unfold Memory.write
    split
    · exact wfFrom_consCell hlo ha (wfFrom_cons.2 ⟨by omega, hk', hv, hm'⟩)
    · split
      · next _ h => subst h; exact wfFrom_consCell hlo ha hm'
      · exact wfFrom_cons.2 ⟨hk, hk', hv, wfFrom_write ha b (by omega) hm'⟩

/-- A store keeps the canonical form. -/
theorem wf_write {font : Config.Font} {m : Memory} (hm : m.wf font = true) {a : Nat} (ha : a < 4096) (b : Byte) :
    (m.write font a b).wf font = true := wfFrom_write ha b (Nat.zero_le a) hm

/-- Where address a is not listed, putting its cell in front makes it read as b. -/
theorem read_consCell_new {font : Config.Font} {a : Nat} {b : Byte} {m : Memory}
    (h : m.read font a = Memory.background font a) (c : Nat) :
    (m.consCell font a b).read font c = if c = a then b else m.read font c := by
  unfold Memory.consCell
  by_cases hb : b = Memory.background font a
  · by_cases hc : c = a <;> simp [hb, hc, h]
  · by_cases hc : c = a <;> simp [hb, hc, Memory.read]

theorem read_writeFrom {font : Config.Font} {a : Nat} (b : Byte) (c : Nat) : ∀ {lo : Nat} {m : Memory},
    Memory.wfFrom font lo m = true → (m.write font a b).read font c = if c = a then b else m.read font c
  | _, [], _ => read_consCell_new rfl c
  | lo, (k, v) :: m, hm => by
    obtain ⟨hk, hk', hv, hm'⟩ := wfFrom_cons.1 hm
    unfold Memory.write
    split
    · next h => exact read_consCell_new (read_below h (wfFrom_cons.2 ⟨Nat.le_refl k, hk', hv, hm'⟩)) c
    · split
      · next _ h =>
        subst h
        rw [read_consCell_new (read_below (Nat.lt_succ_self a) hm')]
        by_cases hc : c = a <;> simp [hc, Memory.read]
      · next _ hne =>
        have ih := read_writeFrom (a := a) b c hm'
        by_cases hc : c = k
        · subst hc; simp [Memory.read, Ne.symm hne]
        · simp [Memory.read, hc, ih]

/-- A read after a write: the written byte at its address, every other address as before. -/
theorem read_write {font : Config.Font} {m : Memory} (hm : m.wf font = true) (a : Nat) (b : Byte) (c : Nat) :
    (m.write font a b).read font c = if c = a then b else m.read font c := read_writeFrom b c hm

/-! ## The machine's bytes -/

/-- With nothing listed memory holds the parameter FONT below 0x050 and zero above. -/
theorem byteAt_nil {s : State} (h : s.mem = []) (a : Nat) : s.byteAt a = Memory.background s.params.font a := by
  rw [State.byteAt, h, Memory.read]

theorem memWf_storeByte {s : State} (hm : s.memWf = true) {a : Nat} (ha : a < 4096) (b : Byte) :
    (s.storeByte a b).memWf = true := wf_write hm ha b

theorem byteAt_storeByte {s : State} (hm : s.memWf = true) (a : Nat) (b : Byte) (c : Nat) :
    (s.storeByte a b).byteAt c = if c = a then b else s.byteAt c := read_write hm a b c

/-- A run of stores writes memory and nothing else. -/
theorem storeAll_frame : ∀ (bs : List Byte) (s : State) (a : Nat), s.storeAll a bs = { s with mem := (s.storeAll a bs).mem }
  | [], _, _ => rfl
  | _ :: bs, s, a => (storeAll_frame bs (s.storeByte a _) (a + 1)).trans rfl

theorem memWf_storeAll : ∀ {s : State} {a : Nat} (bs : List Byte), s.memWf = true → a + bs.length ≤ 4096 →
    (s.storeAll a bs).memWf = true
  | _, _, [], hm, _ => hm
  | s, a, b :: bs, hm, h => by
    simp only [List.length_cons] at h
    exact memWf_storeAll (s := s.storeByte a b) (a := a + 1) bs (memWf_storeByte hm (by omega) b) (by omega)

/-- Reads after a run of stores: the stored bytes at their addresses, every other address as before. -/
theorem byteAt_storeAll (c : Nat) : ∀ {s : State} {a : Nat} (bs : List Byte), s.memWf = true → a + bs.length ≤ 4096 →
    (s.storeAll a bs).byteAt c = if h : a ≤ c ∧ c - a < bs.length then bs[c - a] else s.byteAt c
  | s, a, [], _, _ => by simp [State.storeAll]
  | s, a, b :: bs, hm, hl => by
    simp only [List.length_cons] at hl
    rw [State.storeAll, byteAt_storeAll c bs (memWf_storeByte hm (by omega) b) (by omega)]
    rcases Nat.lt_trichotomy c a with h | h | h
    · have h1 : ¬ (a ≤ c) := by omega
      have h2 : ¬ (a + 1 ≤ c) := by omega
      simp [h1, h2, byteAt_storeByte hm, Nat.ne_of_lt h]
    · subst h
      have h2 : ¬ (c + 1 ≤ c) := by omega
      simp [h2, byteAt_storeByte hm]
    · obtain ⟨d, rfl⟩ : ∃ d, c = a + 1 + d := ⟨c - (a + 1), by omega⟩
      have e1 : a + 1 + d - (a + 1) = d := by omega
      have e2 : a + 1 + d - a = d + 1 := by omega
      have h3 : a ≤ a + 1 + d := by omega
      simp only [e1, e2, h3, List.length_cons, List.getElem_cons_succ]
      simp [byteAt_storeByte hm, Nat.ne_of_gt (show a < a + 1 + d by omega)]

end Sys2Proof.Machine
end

