-- ==== Sys2Proof/Laws/Access.lean ====
section
/-! SUPPORT. Everything the bounded accesses can do (spec/20_memory.md R64): all in range, or the in-range part and then
MEM_BOUNDS at the first address out of range. -/
namespace Sys2Proof.Machine

/-! ## Reads -/

theorem readBytes_ok (s : State) : ∀ (n a : Nat), a + n ≤ 4096 →
    readBytes s a n = .ok ((List.range n).map fun k => s.byteAt (a + k))
  | 0, _, _ => rfl
  | n + 1, a, h => by
    have ha : a < Config.memSize := by rw [memSize_eq]; omega
    have e : ∀ k, a + 1 + k = a + (k + 1) := fun k => by omega
    simp only [readBytes, if_pos ha, readBytes_ok s n (a + 1) (by omega), List.range_succ_eq_map, List.map_cons,
      List.map_map, Nat.add_zero, Function.comp_def, e, Nat.succ_eq_add_one]

theorem readBytes_error (s : State) : ∀ (n a : Nat), n ≠ 0 → 4096 < a + n →
    readBytes s a n = .error (max a 4096)
  | 0, _, h, _ => absurd rfl h
  | n + 1, a, _, h => by
    by_cases ha : a < Config.memSize
    · have ha' := ha
      rw [memSize_eq] at ha'
      have hn : n ≠ 0 := by omega
      simp only [readBytes, if_pos ha, readBytes_error s n (a + 1) hn (by omega)]
      congr 1
      omega
    · have ha' := ha
      rw [memSize_eq] at ha'
      simp only [readBytes, if_neg ha]
      congr 1
      omega

/-! ## Stores -/

theorem storeBytes_ok : ∀ (bs : List Byte) (s : State) (a : Nat), a + bs.length ≤ 4096 →
    storeBytes s a bs = .next (s.storeAll a bs)
  | [], _, _, _ => rfl
  | b :: bs, s, a, h => by
    simp only [List.length_cons] at h
    have ha : a < Config.memSize := by rw [memSize_eq]; omega
    rw [storeBytes, if_pos ha, storeBytes_ok bs _ _ (by omega)]
    rfl

theorem storeBytes_fault : ∀ (bs : List Byte) (s : State) (a : Nat), bs ≠ [] → 4096 < a + bs.length →
    storeBytes s a bs = raiseFault .memBounds (max a 4096) (s.storeAll a (bs.take (4096 - a)))
  | [], _, _, h, _ => absurd rfl h
  | b :: bs, s, a, _, h => by
    simp only [List.length_cons] at h
    by_cases ha : a < Config.memSize
    · have ha' := ha
      rw [memSize_eq] at ha'
      have hne : bs ≠ [] := by rintro rfl; simp at h; omega
      obtain ⟨d, hd⟩ : ∃ d, 4096 - a = d + 1 := ⟨4095 - a, by omega⟩
      have hd' : 4096 - (a + 1) = d := by omega
      have hm : max (a + 1) 4096 = max a 4096 := by omega
      rw [storeBytes, if_pos ha, storeBytes_fault bs _ _ hne (by omega), hd, hd', hm]
      rfl
    · have ha' := ha
      rw [memSize_eq] at ha'
      have h0 : 4096 - a = 0 := by omega
      have hm : max a 4096 = a := by omega
      rw [storeBytes, if_neg ha, h0, hm]
      rfl

/-! ## Loads into registers -/

/-- The loads that are in range, one register after another. -/
def loadAll (s : State) (a : Nat) : List RegIdx → State
  | [] => s
  | k :: ks => loadAll (s.setReg k (s.byteAt a)) (a + 1) ks

theorem loadBytes_ok : ∀ (ks : List RegIdx) (s : State) (a : Nat), a + ks.length ≤ 4096 →
    loadBytes s a ks = .next (loadAll s a ks)
  | [], _, _, _ => rfl
  | k :: ks, s, a, h => by
    simp only [List.length_cons] at h
    have ha : a < Config.memSize := by rw [memSize_eq]; omega
    rw [loadBytes, if_pos ha, loadBytes_ok ks _ _ (by omega)]
    rfl

theorem loadBytes_fault : ∀ (ks : List RegIdx) (s : State) (a : Nat), ks ≠ [] → 4096 < a + ks.length →
    loadBytes s a ks = raiseFault .memBounds (max a 4096) (loadAll s a (ks.take (4096 - a)))
  | [], _, _, h, _ => absurd rfl h
  | k :: ks, s, a, _, h => by
    simp only [List.length_cons] at h
    by_cases ha : a < Config.memSize
    · have ha' := ha
      rw [memSize_eq] at ha'
      have hne : ks ≠ [] := by rintro rfl; simp at h; omega
      obtain ⟨d, hd⟩ : ∃ d, 4096 - a = d + 1 := ⟨4095 - a, by omega⟩
      have hd' : 4096 - (a + 1) = d := by omega
      have hm : max (a + 1) 4096 = max a 4096 := by omega
      rw [loadBytes, if_pos ha, loadBytes_fault ks _ _ hne (by omega), hd, hd', hm]
      rfl
    · have ha' := ha
      rw [memSize_eq] at ha'
      have h0 : 4096 - a = 0 := by omega
      have hm : max a 4096 = a := by omega
      rw [loadBytes, if_neg ha, h0, hm]
      rfl

/-- Loads write registers and nothing else. -/
theorem loadAll_frame : ∀ (ks : List RegIdx) (s : State) (a : Nat), loadAll s a ks = { s with V := (loadAll s a ks).V }
  | [], _, _ => rfl
  | k :: ks, s, a => by
    rw [loadAll]
    exact (loadAll_frame ks _ _).trans rfl

theorem loadAll_reg_other : ∀ (ks : List RegIdx) (s : State) (a : Nat) (j : RegIdx), j ∉ ks →
    (loadAll s a ks).reg j = s.reg j
  | [], _, _, _, _ => rfl
  | k :: ks, s, a, j, h => by
    rw [List.mem_cons, not_or] at h
    rw [loadAll, loadAll_reg_other ks _ _ j h.2, reg_setReg_ne s _ h.1]

theorem loadAll_reg : ∀ (ks : List RegIdx) (s : State) (a : Nat), ks.Nodup → ∀ (j : Nat) (h : j < ks.length),
    (loadAll s a ks).reg ks[j] = s.byteAt (a + j)
  | [], _, _, _, _, h => absurd h (by simp)
  | k :: ks, s, a, hn, j, h => by
    rw [List.nodup_cons] at hn
    cases j with
    | zero => rw [List.getElem_cons_zero, loadAll, loadAll_reg_other ks _ _ k hn.1, reg_setReg_self]; rfl
    | succ j =>
      rw [List.getElem_cons_succ, loadAll, loadAll_reg ks _ _ hn.2 j (by simpa using h), setReg_byteAt]
      congr 1
      omega

/-! ## The register range of Fx55 and Fx65 -/

@[simp] theorem regRange_length (x : RegIdx) : (regRange x).length = x.val + 1 := by
  have := x.isLt
  simp only [regRange, List.length_take, List.length_finRange]
  omega

theorem regRange_getElem (x : RegIdx) (j : Nat) (h : j < (regRange x).length) :
    (regRange x)[j] = ⟨j, by have := x.isLt; simp at h; omega⟩ := by
  simp [regRange]

theorem mem_regRange (x k : RegIdx) : k ∈ regRange x ↔ k ≤ x := by
  rw [List.mem_iff_getElem]
  constructor
  · rintro ⟨j, h, rfl⟩
    rw [regRange_getElem]
    simp at h
    exact Fin.mk_le_of_le_val (by omega)
  · intro h
    exact ⟨k.val, by rw [regRange_length]; exact Nat.lt_succ_of_le h, by rw [regRange_getElem]⟩

theorem regRange_ne_nil (x : RegIdx) : regRange x ≠ [] := by
  intro h; have := regRange_length x; simp [h] at this

theorem regRange_nodup (x : RegIdx) : (regRange x).Nodup :=
  (List.nodup_finRange 16).sublist (List.take_sublist _ _)

@[simp] theorem regValues_length (s : State) (x : RegIdx) : (s.regValues x).length = x.val + 1 := by
  simp [State.regValues]

theorem regValues_ne_nil (s : State) (x : RegIdx) : s.regValues x ≠ [] := by
  intro h; have := regValues_length s x; simp [h] at this

theorem regValues_getElem (s : State) (x : RegIdx) (j : Nat) (h : j < (s.regValues x).length) :
    (s.regValues x)[j] = s.reg ⟨j, by have := x.isLt; simp at h; omega⟩ := by
  simp [State.regValues, regRange_getElem]

end Sys2Proof.Machine
end

