-- ==== Sys2Proof/Laws/Blit.lean ====
section
/-! SUPPORT. What the blitter does to every pixel and to the collision flag (spec/44_display.md R201, R205, R207, R208). -/
namespace Sys2Proof.Machine

@[simp] theorem pixel_clear (px py : Nat) : Display.clear.pixel px py = false := by
  unfold Display.pixel Display.clear
  split <;> simp

theorem pixel_outside (d : Display) {px py : Nat} (h : ¬ (px < 64 ∧ py < 32)) : d.pixel px py = false := by
  simp [Display.pixel, h]

/-- R201: the pixel is toggled, every other pixel is left alone. -/
theorem pixel_setBlock (d : Display) {x y : Nat} (h : x < 64 ∧ y < 32) (px py : Nat) :
    (d.setBlock x y h).1.pixel px py = (d.pixel px py ^^ (decide (px = x) && decide (py = y))) := by
  by_cases hp : px < 64 ∧ py < 32
  · by_cases hy : y = py
    · subst hy
      by_cases hx : x = px
      · subst hx
        simp [Display.pixel, Display.setBlock, h]
      · have hx' : px ≠ x := fun e => hx e.symm
        simp [Display.pixel, Display.setBlock, hp, hx, hx']
    · have hy' : py ≠ y := fun e => hy e.symm
      simp [Display.pixel, Display.setBlock, hp, hy, hy']
  · have hne : ¬ (px = x ∧ py = y) := by rintro ⟨rfl, rfl⟩; exact hp h
    rw [pixel_outside _ hp, pixel_outside _ hp]
    simpa using hne

/-- R201: the report is whether the pixel was on. -/
theorem setBlock_report (d : Display) {x y : Nat} (h : x < 64 ∧ y < 32) : (d.setBlock x y h).2 = d.pixel x y := by
  simp [Display.setBlock, Display.pixel, h]

theorem blitBit_pixel (bit : Bool) (x y : Nat) (acc : Display × Bool) {px py : Nat} (hp : px < 64 ∧ py < 32) :
    (blitBit bit x y acc).1.pixel px py =
      (acc.1.pixel px py ^^ (bit && decide (px = x) && decide (py = y))) := by
  unfold blitBit
  split
  · next h => simp [pixel_setBlock, h.1]
  · next h =>
    have : ¬ (bit = true ∧ px = x ∧ py = y) := by rintro ⟨hb, rfl, rfl⟩; exact h ⟨hb, hp⟩
    have hf : (bit && decide (px = x) && decide (py = y)) = false := by
      by_contra hc
      simp only [Bool.not_eq_false, Bool.and_eq_true, decide_eq_true_eq, and_assoc] at hc
      exact this hc
    rw [hf, Bool.xor_false]

theorem blitBit_hit (bit : Bool) (x y : Nat) (acc : Display × Bool) :
    (blitBit bit x y acc).2 = true ↔ acc.2 = true ∨ (bit = true ∧ acc.1.pixel x y = true) := by
  unfold blitBit
  split
  · next h => simp [setBlock_report, h.1]
  · next h =>
    constructor
    · exact Or.inl
    · rintro (ha | ⟨hb, hpix⟩)
      · exact ha
      · by_cases hxy : x < 64 ∧ y < 32
        · exact absurd ⟨hb, hxy⟩ h
        · rw [pixel_outside _ hxy] at hpix; exact absurd hpix (by simp)

/-- The first n columns of a row. -/
def blitColumns (x0 y : Nat) (row : Byte) (acc : Display × Bool) (n : Nat) : Display × Bool :=
  (List.range n).foldl (fun a c => blitBit (spriteBit row c) (x0 + c) y a) acc

theorem blitColumns_succ (x0 y : Nat) (row : Byte) (acc : Display × Bool) (n : Nat) :
    blitColumns x0 y row acc (n + 1) = blitBit (spriteBit row n) (x0 + n) y (blitColumns x0 y row acc n) := by
  simp [blitColumns, List.range_succ]

theorem blitColumns_pixel (x0 y : Nat) (row : Byte) (acc : Display × Bool) {px py : Nat} (hp : px < 64 ∧ py < 32) (n : Nat) :
    (blitColumns x0 y row acc n).1.pixel px py =
      (acc.1.pixel px py ^^
        (decide (x0 ≤ px) && decide (px < x0 + n) && decide (py = y) && spriteBit row (px - x0))) := by
  induction n with
  | zero =>
    have h0 : (decide (x0 ≤ px) && decide (px < x0 + 0)) = false := by simp
    simp only [blitColumns, List.range_zero, List.foldl_nil, h0, Bool.false_and, Bool.xor_false]
  | succ n ih =>
    rw [blitColumns_succ, blitBit_pixel _ _ _ _ hp, ih]
    by_cases he : px = x0 + n
    · subst he
      have h1 : ¬ (x0 + n < x0 + n) := by omega
      have h2 : x0 + n < x0 + (n + 1) := by omega
      have h3 : x0 + n - x0 = n := by omega
      simp only [h2, h3, decide_true, Bool.and_true, Nat.le_add_right, Bool.true_and, lt_irrefl, decide_false,
        Bool.false_and, Bool.xor_false]
      rw [Bool.and_comm]
    · have h2 : (px < x0 + (n + 1)) ↔ (px < x0 + n) := by omega
      simp [he, h2]

theorem blitColumns_hit (x0 y : Nat) (row : Byte) (acc : Display × Bool) (n : Nat) :
    (blitColumns x0 y row acc n).2 = true ↔
      acc.2 = true ∨ ∃ c, c < n ∧ spriteBit row c = true ∧ acc.1.pixel (x0 + c) y = true := by
  induction n with
  | zero => simp [blitColumns]
  | succ n ih =>
    have hpix : (blitColumns x0 y row acc n).1.pixel (x0 + n) y = acc.1.pixel (x0 + n) y := by
      by_cases hp : x0 + n < 64 ∧ y < 32
      · rw [blitColumns_pixel _ _ _ _ hp]
        simp
      · rw [pixel_outside _ hp, pixel_outside _ hp]
    rw [blitColumns_succ, blitBit_hit, ih, hpix]
    constructor
    · rintro ((h | ⟨c, hc, h⟩) | h)
      · exact Or.inl h
      · exact Or.inr ⟨c, by omega, h⟩
      · exact Or.inr ⟨n, by omega, h⟩
    · rintro (h | ⟨c, hc, h⟩)
      · exact Or.inl (Or.inl h)
      · by_cases he : c = n
        · subst he; exact Or.inr h
        · exact Or.inl (Or.inr ⟨c, by omega, h⟩)

theorem blitRow_eq (x0 y : Nat) (row : Byte) (acc : Display × Bool) :
    blitRow x0 y row acc = blitColumns x0 y row acc 8 := rfl

theorem spriteCovers_cons_head (x0 y : Nat) (row : Byte) (rows : List Byte) (px : Nat) :
    spriteCovers x0 y (row :: rows) px y = (decide (x0 ≤ px) && decide (px < x0 + 8) && spriteBit row (px - x0)) := by
  simp [spriteCovers]

theorem spriteCovers_above (x0 y0 : Nat) (rows : List Byte) (px py : Nat) (h : py < y0) :
    spriteCovers x0 y0 rows px py = false := by
  have : ¬ (y0 ≤ py) := by omega
  simp [spriteCovers, this]

theorem spriteCovers_cons_tail (x0 y : Nat) (row : Byte) (rows : List Byte) (px py : Nat) (h : py ≠ y) :
    spriteCovers x0 y (row :: rows) px py = spriteCovers x0 (y + 1) rows px py := by
  rcases Nat.lt_or_gt_of_ne h with h | h
  · rw [spriteCovers_above _ _ _ _ _ h, spriteCovers_above _ _ _ _ _ (by omega)]
  · obtain ⟨d, rfl⟩ : ∃ d, py = y + 1 + d := ⟨py - (y + 1), by omega⟩
    have e1 : y + 1 + d - y = d + 1 := by omega
    have e2 : y + 1 + d - (y + 1) = d := by omega
    have e3 : (y + 1 + d < y + (rows.length + 1)) ↔ (y + 1 + d < y + 1 + rows.length) := by omega
    have e4 : y ≤ y + 1 + d := by omega
    simp only [spriteCovers, List.length_cons, e1, e2, e3, e4, decide_true, Nat.le_add_right, Bool.and_true,
      List.getD_cons_succ]

theorem blitRows_pixel (x0 : Nat) {px py : Nat} (hp : px < 64 ∧ py < 32) :
    ∀ (rows : List Byte) (y : Nat) (acc : Display × Bool),
      (blitRows x0 y rows acc).1.pixel px py = (acc.1.pixel px py ^^ spriteCovers x0 y rows px py)
  | [], y, acc => by
    have h0 : spriteCovers x0 y [] px py = false := by
      by_cases h : y ≤ py
      · have : ¬ (py < y) := by omega
        simp [spriteCovers, this]
      · exact spriteCovers_above _ _ _ _ _ (by omega)
    simp [blitRows, h0]
  | row :: rows, y, acc => by
    rw [blitRows, blitRows_pixel x0 hp rows, blitRow_eq, blitColumns_pixel _ _ _ _ hp]
    by_cases hy : py = y
    · subst hy
      rw [spriteCovers_above _ _ _ _ _ (Nat.lt_succ_self py), spriteCovers_cons_head]
      simp
    · rw [spriteCovers_cons_tail _ _ _ _ _ _ hy]
      simp [hy]

theorem blitRows_hit (x0 : Nat) :
    ∀ (rows : List Byte) (y : Nat) (acc : Display × Bool),
      (blitRows x0 y rows acc).2 = true ↔
        acc.2 = true ∨ ∃ px py, (px < 64 ∧ py < 32) ∧ spriteCovers x0 y rows px py = true ∧ acc.1.pixel px py = true
  | [], y, acc => by
    constructor
    · exact Or.inl
    · rintro (h | ⟨px, py, hp, hc, -⟩)
      · exact h
      · simp [spriteCovers] at hc; omega
  | row :: rows, y, acc => by
    rw [blitRows, blitRows_hit x0 rows, blitRow_eq, blitColumns_hit]
    constructor
    · rintro ((h | ⟨c, hc, hb, hpix⟩) | ⟨px, py, hp, hc, hpix⟩)
      · exact Or.inl h
      · have hin : x0 + c < 64 ∧ y < 32 := by
          by_contra hout; rw [pixel_outside _ hout] at hpix; exact absurd hpix (by simp)
        refine Or.inr ⟨x0 + c, y, hin, ?_, hpix⟩
        rw [spriteCovers_cons_head]
        have e : x0 + c - x0 = c := by omega
        simp [e, hb, hc]
      · have hy : py ≠ y := by
          rintro rfl
          rw [spriteCovers_above _ _ _ _ _ (Nat.lt_succ_self py)] at hc
          exact absurd hc (by simp)
        refine Or.inr ⟨px, py, hp, by rw [spriteCovers_cons_tail _ _ _ _ _ _ hy]; exact hc, ?_⟩
        rw [blitColumns_pixel _ _ _ _ hp] at hpix
        simpa [hy] using hpix
    · rintro (h | ⟨px, py, hp, hc, hpix⟩)
      · exact Or.inl (Or.inl h)
      · by_cases hy : py = y
        · subst hy
          rw [spriteCovers_cons_head] at hc
          simp only [Bool.and_eq_true, decide_eq_true_eq] at hc
          refine Or.inl (Or.inr ⟨px - x0, by omega, hc.2, ?_⟩)
          have e : x0 + (px - x0) = px := by omega
          rw [e]; exact hpix
        · rw [spriteCovers_cons_tail _ _ _ _ _ _ hy] at hc
          refine Or.inr ⟨px, py, hp, hc, ?_⟩
          rw [blitColumns_pixel _ _ _ _ hp]
          simpa [hy] using hpix

/-- Every pixel of the grid is toggled exactly when a set bit of the sprite covers it (R205, R207). -/
theorem blit_pixel (d : Display) (x0 y0 : Nat) (rows : List Byte) {px py : Nat} (hp : px < 64 ∧ py < 32) :
    (blit d x0 y0 rows).1.pixel px py = (d.pixel px py ^^ spriteCovers x0 y0 rows px py) :=
  blitRows_pixel x0 hp rows y0 (d, false)

/-- A collision is a covered pixel of the grid that was on (R208). -/
theorem blit_hit (d : Display) (x0 y0 : Nat) (rows : List Byte) :
    (blit d x0 y0 rows).2 = true ↔
      ∃ px py, (px < 64 ∧ py < 32) ∧ spriteCovers x0 y0 rows px py = true ∧ d.pixel px py = true :=
  (blitRows_hit x0 rows y0 (d, false)).trans (by simp)

/-- Buffers that agree on every pixel are equal. -/
theorem pixel_ext {d e : Display} (h : ∀ px py, px < 64 ∧ py < 32 → d.pixel px py = e.pixel px py) : d = e := by
  refine Vector.ext fun y hy => Vector.ext fun x hx => ?_
  have := h x y ⟨hx, hy⟩
  simpa [Display.pixel, hx, hy] using this

end Sys2Proof.Machine
end

