-- ==== Sys2Proof/Laws/Decode.lean ====
section
/-! SUPPORT. The fields of a word of each format are what the format puts there, and a word is its fields put together
(spec/30_encoding.md R81, R82). -/
namespace Sys2Proof

/-! ## The number of a word of each format, and of each field -/

theorem fmtNNN_toNat (t : BitVec 4) (nnn : BitVec 12) : (fmtNNN t nnn).toNat = t.toNat * 4096 + nnn.toNat := by
  unfold fmtNNN
  rw [BitVec.toNat_append, ← Nat.shiftLeft_add_eq_or_of_lt nnn.isLt, Nat.shiftLeft_eq]

theorem fmtXKK_toNat (t : BitVec 4) (x : RegIdx) (kk : Byte) :
    (fmtXKK t x kk).toNat = t.toNat * 4096 + x.val * 256 + kk.toNat := by
  unfold fmtXKK
  rw [BitVec.toNat_append, ← Nat.shiftLeft_add_eq_or_of_lt kk.isLt, BitVec.toNat_append,
    ← Nat.shiftLeft_add_eq_or_of_lt (regBits x).isLt, Nat.shiftLeft_eq, Nat.shiftLeft_eq]
  simp only [regBits, BitVec.toNat_ofFin]
  omega

theorem fmtXYN_toNat (t : BitVec 4) (x y : RegIdx) (n : BitVec 4) :
    (fmtXYN t x y n).toNat = t.toNat * 4096 + x.val * 256 + y.val * 16 + n.toNat := by
  unfold fmtXYN
  rw [BitVec.toNat_append, ← Nat.shiftLeft_add_eq_or_of_lt n.isLt, BitVec.toNat_append,
    ← Nat.shiftLeft_add_eq_or_of_lt (regBits y).isLt, BitVec.toNat_append,
    ← Nat.shiftLeft_add_eq_or_of_lt (regBits x).isLt, Nat.shiftLeft_eq, Nat.shiftLeft_eq, Nat.shiftLeft_eq]
  simp only [regBits, BitVec.toNat_ofFin]
  omega

theorem topNibble_toNat (op : Word) : (topNibble op).toNat = op.toNat / 4096 := by
  have := op.isLt
  rw [topNibble, BitVec.extractLsb'_toNat, Nat.shiftRight_eq_div_pow]
  omega

theorem xField_val (op : Word) : (xField op).val = op.toNat / 256 % 16 := by
  rw [xField, BitVec.val_toFin, BitVec.extractLsb'_toNat, Nat.shiftRight_eq_div_pow]

theorem yField_val (op : Word) : (yField op).val = op.toNat / 16 % 16 := by
  rw [yField, BitVec.val_toFin, BitVec.extractLsb'_toNat, Nat.shiftRight_eq_div_pow]

theorem nField_toNat (op : Word) : (nField op).toNat = op.toNat % 16 := by
  rw [nField, BitVec.extractLsb'_toNat, Nat.shiftRight_zero]

theorem kkField_toNat (op : Word) : (kkField op).toNat = op.toNat % 256 := by
  rw [kkField, BitVec.extractLsb'_toNat, Nat.shiftRight_zero]

theorem nnnField_toNat (op : Word) : (nnnField op).toNat = op.toNat % 4096 := by
  rw [nnnField, BitVec.extractLsb'_toNat, Nat.shiftRight_zero]

/-! ## A format's fields -/

@[simp] theorem fmtNNN_topNibble (t : BitVec 4) (nnn : BitVec 12) : topNibble (fmtNNN t nnn) = t := by
  have := nnn.isLt
  apply BitVec.eq_of_toNat_eq
  rw [topNibble_toNat, fmtNNN_toNat]
  omega

@[simp] theorem fmtNNN_nnn (t : BitVec 4) (nnn : BitVec 12) : nnnField (fmtNNN t nnn) = nnn := by
  have := nnn.isLt
  apply BitVec.eq_of_toNat_eq
  rw [nnnField_toNat, fmtNNN_toNat]
  omega

@[simp] theorem fmtXKK_topNibble (t : BitVec 4) (x : RegIdx) (kk : Byte) : topNibble (fmtXKK t x kk) = t := by
  have := kk.isLt; have := x.isLt
  apply BitVec.eq_of_toNat_eq
  rw [topNibble_toNat, fmtXKK_toNat]
  omega

@[simp] theorem fmtXKK_x (t : BitVec 4) (x : RegIdx) (kk : Byte) : xField (fmtXKK t x kk) = x := by
  have := kk.isLt; have := x.isLt
  apply Fin.ext
  rw [xField_val, fmtXKK_toNat]
  omega

@[simp] theorem fmtXKK_kk (t : BitVec 4) (x : RegIdx) (kk : Byte) : kkField (fmtXKK t x kk) = kk := by
  have := kk.isLt
  apply BitVec.eq_of_toNat_eq
  rw [kkField_toNat, fmtXKK_toNat]
  omega

@[simp] theorem fmtXYN_topNibble (t : BitVec 4) (x y : RegIdx) (n : BitVec 4) : topNibble (fmtXYN t x y n) = t := by
  have := n.isLt; have := x.isLt; have := y.isLt
  apply BitVec.eq_of_toNat_eq
  rw [topNibble_toNat, fmtXYN_toNat]
  omega

@[simp] theorem fmtXYN_x (t : BitVec 4) (x y : RegIdx) (n : BitVec 4) : xField (fmtXYN t x y n) = x := by
  have := n.isLt; have := x.isLt; have := y.isLt
  apply Fin.ext
  rw [xField_val, fmtXYN_toNat]
  omega

@[simp] theorem fmtXYN_y (t : BitVec 4) (x y : RegIdx) (n : BitVec 4) : yField (fmtXYN t x y n) = y := by
  have := n.isLt; have := y.isLt
  apply Fin.ext
  rw [yField_val, fmtXYN_toNat]
  omega

@[simp] theorem fmtXYN_n (t : BitVec 4) (x y : RegIdx) (n : BitVec 4) : nField (fmtXYN t x y n) = n := by
  have := n.isLt
  apply BitVec.eq_of_toNat_eq
  rw [nField_toNat, fmtXYN_toNat]
  omega

/-! ## A word is its fields -/

theorem word_eq_fmtNNN (op : Word) : op = fmtNNN (topNibble op) (nnnField op) := by
  apply BitVec.eq_of_toNat_eq
  rw [fmtNNN_toNat, topNibble_toNat, nnnField_toNat]
  omega

theorem word_eq_fmtXKK (op : Word) : op = fmtXKK (topNibble op) (xField op) (kkField op) := by
  apply BitVec.eq_of_toNat_eq
  rw [fmtXKK_toNat, topNibble_toNat, xField_val, kkField_toNat]
  omega

theorem word_eq_fmtXYN (op : Word) : op = fmtXYN (topNibble op) (xField op) (yField op) (nField op) := by
  apply BitVec.eq_of_toNat_eq
  rw [fmtXYN_toNat, topNibble_toNat, xField_val, yField_val, nField_toNat]
  omega

/-! ## Bytes -/

@[simp] theorem opcodeOf_bytes (op : Word) : opcodeOf (highByte op) (lowByte op) = op := by
  apply BitVec.eq_of_toNat_eq
  have := op.isLt
  rw [opcodeOf, BitVec.toNat_append, ← Nat.shiftLeft_add_eq_or_of_lt (lowByte op).isLt, Nat.shiftLeft_eq, highByte,
    lowByte, BitVec.extractLsb'_toNat, BitVec.extractLsb'_toNat, Nat.shiftRight_eq_div_pow, Nat.shiftRight_zero]
  omega

end Sys2Proof
end

