-- ==== Sys2Proof/Laws/Keyboard.lean ====
section
/-! SUPPORT. Everything the keyboard controller's loops can do (spec/45_keyboard_timers.md R222, R223, R225). -/
namespace Sys2Proof.Machine

/-! ## record_event -/

/-- Recording an event touches the three pieces of keyboard state and nothing else. -/
theorem recordEvent_frame (e : Event) (s : State) :
    recordEvent e s =
      { s with
        lastPress := (recordEvent e s).lastPress
        kbQuit := (recordEvent e s).kbQuit
        kbToggle := (recordEvent e s).kbToggle } := by
  cases e <;> rfl

/-! ## DrainEvents -/

theorem drainFrom_quit {s : State} (h : s.kbQuit = true) : ∀ q : List Event, drainFrom q s = { s with Q := q }
  | [] => rfl
  | e :: q => by rw [drainFrom, if_pos h]

/-- Draining touches the keyboard state and the queue and nothing else. -/
theorem drainFrom_frame : ∀ (q : List Event) (s : State),
    drainFrom q s =
      { s with
        lastPress := (drainFrom q s).lastPress
        kbQuit := (drainFrom q s).kbQuit
        kbToggle := (drainFrom q s).kbToggle
        Q := (drainFrom q s).Q }
  | [], _ => rfl
  | e :: q, s => by
    by_cases h : s.kbQuit = true
    · rw [drainFrom_quit h]
    · rw [drainFrom, if_neg h]
      have h1 := drainFrom_frame q (recordEvent e s)
      cases e <;> exact h1.trans rfl

theorem drainEvents_frame (s : State) :
    drainEvents s =
      { s with
        lastPress := (drainEvents s).lastPress
        kbQuit := (drainEvents s).kbQuit
        kbToggle := (drainEvents s).kbToggle
        Q := (drainEvents s).Q } :=
  drainFrom_frame s.Q s

/-- A drain that has seen no quit has emptied the queue. -/
theorem drainFrom_empties : ∀ (q : List Event) (s : State), (drainFrom q s).kbQuit = false → (drainFrom q s).Q = []
  | [], _, _ => rfl
  | e :: q, s, h => by
    by_cases hq : s.kbQuit = true
    · rw [drainFrom_quit hq] at h
      exact absurd (hq.symm.trans h) (by decide)
    · rw [drainFrom, if_neg hq] at h ⊢
      exact drainFrom_empties q _ h

/-! ## ResolveWait -/

/-- After a quit the poll removes nothing. -/
theorem resolveFrom_after_quit (w : WaitRequest) {s : State} (h : s.kbQuit = true) :
    ∀ q : List Event, resolveFrom w q s = { s with Q := q }
  | [] => rfl
  | e :: q => by unfold resolveFrom; rw [if_pos h]

theorem resolveFrom_meets_quit (w : WaitRequest) {s : State} (h : s.kbQuit = false) (ts : Time) (q : List Event) :
    resolveFrom w (.quit ts :: q) s = recordEvent (.quit ts) { s with Q := q } := by
  unfold resolveFrom; rw [if_neg (by simp [h])]

theorem resolveFrom_meets_toggle (w : WaitRequest) {s : State} (h : s.kbQuit = false) (ts : Time) (q : List Event) :
    resolveFrom w (.toggle ts :: q) s = recordEvent (.toggle ts) { s with Q := q } := by
  unfold resolveFrom; rw [if_neg (by simp [h])]

theorem resolveFrom_accepts (w : WaitRequest) {s : State} (h : s.kbQuit = false) (k : Key) {ts : Time}
    (hv : w.validAfter ≤ ts) (q : List Event) :
    resolveFrom w (.char k ts :: q) s = resolveWith w.dest k { s with Q := q } := by
  unfold resolveFrom; rw [if_neg (by simp [h])]; exact if_pos hv

theorem resolveFrom_discards (w : WaitRequest) {s : State} (h : s.kbQuit = false) (k : Key) {ts : Time}
    (hv : ¬ w.validAfter ≤ ts) (q : List Event) :
    resolveFrom w (.char k ts :: q) s = resolveFrom w q s := by
  conv_lhs => unfold resolveFrom
  rw [if_neg (by simp [h])]; exact if_neg hv

/-- The five ends of a poll: a property of the result that holds of each of them holds of the poll. -/
theorem resolveFrom_induct (w : WaitRequest) (s : State) (P : State → Prop)
    (stays : ∀ q, P { s with Q := q })
    (quits : ∀ ts q, P (recordEvent (.quit ts) { s with Q := q }))
    (toggles : ∀ ts q, P (recordEvent (.toggle ts) { s with Q := q }))
    (resolves : ∀ k q, P (resolveWith w.dest k { s with Q := q })) : ∀ q, P (resolveFrom w q s)
  | [] => stays []
  | e :: q => by
    by_cases h : s.kbQuit = true
    · rw [resolveFrom_after_quit w h]; exact stays _
    · have h' := Bool.eq_false_iff.2 h
      cases e with
      | quit ts => rw [resolveFrom_meets_quit w h']; exact quits ts q
      | toggle ts => rw [resolveFrom_meets_toggle w h']; exact toggles ts q
      | char k ts =>
        by_cases hv : w.validAfter ≤ ts
        · rw [resolveFrom_accepts w h' k hv]; exact resolves k q
        · rw [resolveFrom_discards w h' k hv]; exact resolveFrom_induct w s P stays quits toggles resolves q

/-- A poll of a wait touches the registers, the wait request, the two flags and the queue and nothing else; in particular
no press time (R225, the spec's decision D13). -/
theorem resolveFrom_frame (w : WaitRequest) (q : List Event) (s : State) :
    resolveFrom w q s =
      { s with
        V := (resolveFrom w q s).V
        wait := (resolveFrom w q s).wait
        kbQuit := (resolveFrom w q s).kbQuit
        kbToggle := (resolveFrom w q s).kbToggle
        Q := (resolveFrom w q s).Q } :=
  resolveFrom_induct w s
    (fun t => t = { s with V := t.V, wait := t.wait, kbQuit := t.kbQuit, kbToggle := t.kbToggle, Q := t.Q })
    (fun _ => rfl) (fun _ _ => rfl) (fun _ _ => rfl) (fun _ _ => rfl) q

/-- After a poll the request is the one that was pending, or none. -/
theorem resolveFrom_wait (w : WaitRequest) (q : List Event) (s : State) :
    (resolveFrom w q s).wait = s.wait ∨ (resolveFrom w q s).wait = none :=
  resolveFrom_induct w s (fun t => t.wait = s.wait ∨ t.wait = none)
    (fun _ => Or.inl rfl) (fun _ _ => Or.inl rfl) (fun _ _ => Or.inl rfl) (fun _ _ => Or.inr rfl) q

theorem resolveWait_frame (w : WaitRequest) (s : State) :
    resolveWait w s =
      { s with
        V := (resolveWait w s).V
        wait := (resolveWait w s).wait
        kbQuit := (resolveWait w s).kbQuit
        kbToggle := (resolveWait w s).kbToggle
        Q := (resolveWait w s).Q } :=
  resolveFrom_frame w s.Q s

/-! ## Keys -/

theorem keyOf_some {b : Byte} (h : b.toNat < 16) : keyOf b = some ⟨b.toNat, h⟩ := by simp [keyOf, h]

theorem keyOf_none {b : Byte} (h : ¬ b.toNat < 16) : keyOf b = none := by simp [keyOf, h]

end Sys2Proof.Machine
end

