-- ==== Sys2Proof/Laws/Step.lean ====
section
/-! SUPPORT. Everything a step can do around the instruction it executes, said once (spec/40_execution_cycle.md R101 to
R118). -/
namespace Sys2Proof.Machine

/-! ## Fetch -/

theorem fetch_ok {s : State} (h : s.pc.toNat + 1 < 4096) :
    fetch s = .ok (opcodeOf (s.byteAt s.pc.toNat) (s.byteAt (s.pc.toNat + 1))) := by
  unfold fetch
  rw [readBytes_ok s 2 s.pc.toNat (by omega)]
  rfl

theorem fetch_error {s : State} (h : 4096 ≤ s.pc.toNat + 1) : fetch s = .error (max s.pc.toNat 4096) := by
  unfold fetch
  rw [readBytes_error s 2 s.pc.toNat (by omega) (by omega)]

/-! ## The environment's part -/

/-- Before the engine's own work only the queue's tail and the environment change. -/
theorem takeInput_frame (s : State) : takeInput s = { s with Q := (takeInput s).Q, env := (takeInput s).env } := by
  unfold takeInput
  cases h : s.env.inputs <;> rfl

@[simp] theorem takeInput_rs (s : State) : (takeInput s).rs = s.rs := by rw [takeInput_frame]
@[simp] theorem takeInput_wait (s : State) : (takeInput s).wait = s.wait := by rw [takeInput_frame]
@[simp] theorem takeInput_kbQuit (s : State) : (takeInput s).kbQuit = s.kbQuit := by rw [takeInput_frame]

/-- Polling the input: registers and the wait request change only where a wait was pending, press times only where none
was, and nothing but these, the two flags and the queue changes at all (R103, R104). -/
theorem pollInput_frame (s : State) :
    pollInput s =
      { s with
        V := (pollInput s).V
        lastPress := (pollInput s).lastPress
        kbQuit := (pollInput s).kbQuit
        kbToggle := (pollInput s).kbToggle
        Q := (pollInput s).Q
        wait := (pollInput s).wait } := by
  unfold pollInput
  cases h : s.wait with
  | none =>
    have h1 := drainEvents_frame s
    have hV : (drainEvents s).V = s.V := by rw [h1]
    have hw : (drainEvents s).wait = s.wait := by rw [h1]
    simp only [hV, hw]
    exact h1
  | some w =>
    have h1 := resolveWait_frame w s
    have hl : (resolveWait w s).lastPress = s.lastPress := by rw [h1]
    simp only [hl]
    exact h1

theorem pollInput_rs (s : State) : (pollInput s).rs = s.rs := by rw [pollInput_frame]

theorem pollInput_wait_none {s : State} (h : s.wait = none) : (pollInput s).wait = none := by
  unfold pollInput
  simp only [h]
  rw [drainEvents_frame]
  exact h

/-- The state after the environment's part and the poll: what may differ from the state the step started from. -/
theorem polled_frame (s : State) :
    pollInput (takeInput s) =
      { s with
        V := (pollInput (takeInput s)).V
        lastPress := (pollInput (takeInput s)).lastPress
        kbQuit := (pollInput (takeInput s)).kbQuit
        kbToggle := (pollInput (takeInput s)).kbToggle
        Q := (pollInput (takeInput s)).Q
        wait := (pollInput (takeInput s)).wait
        env := (takeInput s).env } := by
  have h1 := pollInput_frame (takeInput s)
  have h2 := takeInput_frame s
  generalize pollInput (takeInput s) = p at *
  generalize takeInput s = a at *
  rw [h1, h2]

theorem polled_rs (s : State) : (pollInput (takeInput s)).rs = s.rs := by rw [polled_frame]

/-- The environment's part and the poll leave every byte of memory. -/
theorem polled_byteAt (s : State) (a : Nat) : (pollInput (takeInput s)).byteAt a = s.byteAt a := by rw [polled_frame]; rfl

/-! ## The frame end -/

theorem countStep_notRun {s : State} (h : s.rs ≠ .run) : countStep s = s := by
  unfold countStep
  cases hr : s.rs with
  | run => exact absurd hr h
  | quit => rfl
  | fault c i => rfl

theorem countStep_within {s : State} (h : s.rs = .run) (hn : s.phase + 1 < s.params.stepsPerFrame) :
    countStep s = { s with phase := s.phase + 1 } := by
  unfold countStep
  rw [h]
  exact if_neg (by omega)

theorem countStep_ends {s : State} (h : s.rs = .run) (hn : s.params.stepsPerFrame ≤ s.phase + 1) :
    countStep s = endFrame s := by
  unfold countStep
  rw [h]
  exact if_pos hn

theorem endFrame_paused {s : State} (h : s.paused = true) :
    endFrame s =
      { s with phase := 0, out := { frames := s.out.frames + 1, shown := some { frame := s.out.frames, view := s.view } } } := by
  simp [endFrame, tickTimers, present, State.view, h]

theorem endFrame_ticks {s : State} (h : s.paused = false) :
    endFrame s =
      { s with
        phase := 0
        DT := countDown s.DT
        ST := countDown s.ST
        out := { frames := s.out.frames + 1, shown := some { frame := s.out.frames, view := s.view } } } := by
  simp [endFrame, tickTimers, present, State.view, h]

/-- Counting a step touches the phase, the timers and the output and nothing else. -/
theorem countStep_frame (s : State) :
    countStep s =
      { s with
        phase := (countStep s).phase
        DT := (countStep s).DT
        ST := (countStep s).ST
        out := (countStep s).out } := by
  by_cases h : s.rs = .run
  · by_cases hn : s.params.stepsPerFrame ≤ s.phase + 1
    · rw [countStep_ends h hn]
      by_cases hp : s.paused = true
      · rw [endFrame_paused hp]
      · rw [endFrame_ticks (Bool.eq_false_iff.2 hp)]
    · rw [countStep_within h (by omega)]
  · rw [countStep_notRun h]

/-! ## The step -/

/-- The five things a step can do (R102). `a` is the state the step starts from, once the environment has had its part,
and `b` the state after the poll. -/
theorem step_cases {s t : State} (h : step s = .next t) :
    s.rs = .run ∧
    ((takeInput s).env.disconnected = true ∧ (takeInput s).kbQuit = false ∧
        t = (takeInput s).latchFault .inputChannelLost 0 ∨
     (¬ ((takeInput s).env.disconnected = true ∧ (takeInput s).kbQuit = false)) ∧
      ((pollInput (takeInput s)).kbQuit = true ∧ t = enterQuit (pollInput (takeInput s)) ∨
       (pollInput (takeInput s)).kbQuit = false ∧
        ((pollInput (takeInput s)).kbToggle = true ∧ t = countStep ((pollInput (takeInput s)).setPaused true) ∨
         (pollInput (takeInput s)).kbToggle = false ∧
          (s.wait.isSome = true ∧ t = countStep ((pollInput (takeInput s)).setPaused false) ∨
           s.wait = none ∧
            ∃ u, fetchExecute ((pollInput (takeInput s)).setPaused false) = .next u ∧ t = countStep u)))) := by
  unfold step at h
  cases hr : s.rs with
  | quit => simp [hr] at h
  | fault c i => simp [hr] at h
  | run =>
    refine ⟨rfl, ?_⟩
    simp only [hr, runStep, engineStep] at h
    split at h
    · next hd =>
      simp only [Bool.and_eq_true, Bool.not_eq_true'] at hd
      simp only [raiseFault, finishStep, Host.Outcome.next.injEq] at h
      exact Or.inl ⟨hd.1, hd.2, h.symm.trans (countStep_notRun (by simp))⟩
    · next hd =>
      simp only [Bool.and_eq_true, Bool.not_eq_true'] at hd
      refine Or.inr ⟨hd, ?_⟩
      unfold controlStep at h
      split at h
      · next hq =>
        simp only [finishStep, Host.Outcome.next.injEq] at h
        exact Or.inl ⟨hq, h.symm.trans (countStep_notRun (by simp [enterQuit]))⟩
      · next hq =>
        refine Or.inr ⟨Bool.eq_false_iff.2 hq, ?_⟩
        split at h
        · next ht =>
          simp only [finishStep, Host.Outcome.next.injEq] at h
          exact Or.inl ⟨ht, h.symm⟩
        · next ht =>
          refine Or.inr ⟨Bool.eq_false_iff.2 ht, ?_⟩
          rw [takeInput_wait] at h
          split at h
          · next hw =>
            simp only [finishStep, Host.Outcome.next.injEq] at h
            exact Or.inl ⟨hw, h.symm⟩
          · next hw =>
            refine Or.inr ⟨by simpa using hw, ?_⟩
            cases hf : fetchExecute ((pollInput (takeInput s)).setPaused false) with
            | next u =>
              rw [hf] at h
              simp only [finishStep, Host.Outcome.next.injEq] at h
              exact ⟨u, rfl, h.symm⟩
            | fault r => rw [hf] at h; simp [finishStep] at h
            | refused r => rw [hf] at h; simp [finishStep] at h

/-- Everything step e can do: a fetch fault with `pc` unchanged, an unknown opcode with `pc` advanced, or the decoded
instruction's meaning (R107, R264). -/
theorem fetchExecute_cases (s : State) :
    (4096 ≤ s.pc.toNat + 1 ∧ fetchExecute s = raiseFault .memBounds (max s.pc.toNat 4096) s) ∨
    (s.pc.toNat + 1 < 4096 ∧
      ((decodeWord (opcodeOf (s.byteAt s.pc.toNat) (s.byteAt (s.pc.toNat + 1))) = none ∧
          fetchExecute s = raiseFault .unknownOpcode
            (opcodeOf (s.byteAt s.pc.toNat) (s.byteAt (s.pc.toNat + 1))).toNat s.advancePc) ∨
       ∃ i, decodeWord (opcodeOf (s.byteAt s.pc.toNat) (s.byteAt (s.pc.toNat + 1))) = some i ∧
          fetchExecute s = exec i s.advancePc)) := by
  by_cases h : s.pc.toNat + 1 < 4096
  · refine Or.inr ⟨h, ?_⟩
    unfold fetchExecute executeWord
    simp only [fetch_ok h]
    cases hd : decodeWord (opcodeOf (s.byteAt s.pc.toNat) (s.byteAt (s.pc.toNat + 1))) with
    | none => exact Or.inl ⟨rfl, rfl⟩
    | some i => exact Or.inr ⟨i, rfl, rfl⟩
  · refine Or.inl ⟨by omega, ?_⟩
    unfold fetchExecute
    simp only [fetch_error (show 4096 ≤ s.pc.toNat + 1 by omega)]

end Sys2Proof.Machine
end

