-- ==== Sys2Proof/Laws/Exec.lean ====
section
/-! SUPPORT. What each shared operation of the meanings can do, said once, and that every instruction answers a next state. -/
namespace Sys2Proof.Machine

/-! ## Shared operations -/

theorem skipIf_true (s : State) : skipIf true s = .next { s with pc := s.pc + 2 } := rfl

theorem skipIf_false (s : State) : skipIf false s = .next s := rfl

/-- A skip answers the state with `pc` advanced once more, or as it is. -/
theorem skipIf_cases (c : Bool) (s : State) :
    (c = true ∧ skipIf c s = .next { s with pc := s.pc + 2 }) ∨ (c = false ∧ skipIf c s = .next s) := by
  cases c
  · exact Or.inr ⟨rfl, rfl⟩
  · exact Or.inl ⟨rfl, rfl⟩

theorem withKey_ok {x : RegIdx} {s : State} (f : Key → Result) (h : (s.reg x).toNat < 16) :
    withKey x s f = f ⟨(s.reg x).toNat, h⟩ := by
  simp only [withKey, keyOf_some h]

theorem withKey_fault {x : RegIdx} {s : State} (f : Key → Result) (h : ¬ (s.reg x).toNat < 16) :
    withKey x s f = raiseFault .keyIndex (s.reg x).toNat s := by
  simp only [withKey, keyOf_none h]

/-- A run of stores writes memory, and latches MEM_BOUNDS or nothing. -/
theorem storeBytes_cases (bs : List Byte) (s : State) (a : Nat) :
    ∃ m, (storeBytes s a bs = .next { s with mem := m }) ∨
      ∃ e, 4096 ≤ e ∧ storeBytes s a bs = .next { s with mem := m, rs := .fault .memBounds e } := by
  by_cases h : a + bs.length ≤ 4096
  · exact ⟨_, Or.inl ((storeBytes_ok bs s a h).trans (congrArg _ (storeAll_frame bs s a)))⟩
  · cases bs with
    | nil => exact ⟨s.mem, Or.inl rfl⟩
    | cons b bs =>
      refine ⟨(s.storeAll a ((b :: bs).take (4096 - a))).mem, Or.inr ⟨max a 4096, by omega, ?_⟩⟩
      rw [storeBytes_fault (b :: bs) s a (by simp) (by omega)]
      exact congrArg (raiseFault .memBounds (max a 4096)) (storeAll_frame _ s a)

/-- A run of loads writes registers, and latches MEM_BOUNDS or nothing. -/
theorem loadBytes_cases (ks : List RegIdx) (s : State) (a : Nat) :
    ∃ V, (loadBytes s a ks = .next { s with V := V }) ∨
      ∃ e, 4096 ≤ e ∧ loadBytes s a ks = .next { s with V := V, rs := .fault .memBounds e } := by
  by_cases h : a + ks.length ≤ 4096
  · exact ⟨_, Or.inl ((loadBytes_ok ks s a h).trans (congrArg _ (loadAll_frame ks s a)))⟩
  · cases ks with
    | nil => exact ⟨s.V, Or.inl rfl⟩
    | cons k ks =>
      refine ⟨(loadAll s a ((k :: ks).take (4096 - a))).V, Or.inr ⟨max a 4096, by omega, ?_⟩⟩
      rw [loadBytes_fault (k :: ks) s a (by simp) (by omega)]
      exact congrArg (raiseFault .memBounds (max a 4096)) (loadAll_frame _ s a)

/-- A draw writes registers and the display, or latches MEM_BOUNDS and writes neither. -/
theorem execDrw_cases (x y : RegIdx) (n : BitVec 4) (s : State) :
    ((n = 0 ∨ s.I.toNat + n.toNat ≤ 4096) ∧
      execDrw x y n s = .next (drawRows (s.startColumn x) (s.startRow y)
        ((List.range n.toNat).map fun k => s.byteAt (s.I.toNat + k)) s)) ∨
    (¬ (n = 0 ∨ s.I.toNat + n.toNat ≤ 4096) ∧
      execDrw x y n s = .next { s with rs := .fault .memBounds (max s.I.toNat 4096) }) := by
  by_cases h : n = 0 ∨ s.I.toNat + n.toNat ≤ 4096
  · refine Or.inl ⟨h, ?_⟩
    unfold execDrw rowCount State.dataAddr
    rcases h with rfl | h
    · rfl
    · rw [readBytes_ok _ _ _ (by omega)]
      rfl
  · refine Or.inr ⟨h, ?_⟩
    rw [not_or] at h
    have hn : n.toNat ≠ 0 := fun e => h.1 (BitVec.eq_of_toNat_eq e)
    unfold execDrw rowCount State.dataAddr
    rw [readBytes_error _ _ _ hn (by omega)]
    rfl

theorem drawRows_frame (x0 y0 : Nat) (rows : List Byte) (s : State) :
    drawRows x0 y0 rows s =
      { s with V := (drawRows x0 y0 rows s).V, Pix := (drawRows x0 y0 rows s).Pix } := rfl

@[simp] theorem drawRows_Pix (x0 y0 : Nat) (rows : List Byte) (s : State) :
    (drawRows x0 y0 rows s).Pix = (blit s.Pix x0 y0 rows).1 := rfl

theorem drawRows_reg (x0 y0 : Nat) (rows : List Byte) (s : State) (j : RegIdx) :
    (drawRows x0 y0 rows s).reg j = if j = 15 then collisionFlag (blit s.Pix x0 y0 rows).2 else s.reg j := by
  simp [drawRows, reg_setReg, vf]

/-! ## Every instruction answers a next state -/

theorem execSkp_cases (x : RegIdx) (s : State) :
    execSkp x s = .next { s with pc := s.pc + 2 } ∨ execSkp x s = .next s ∨
      execSkp x s = .next { s with rs := .fault .keyIndex (s.reg x).toNat } := by
  unfold execSkp
  by_cases h : (s.reg x).toNat < 16
  · rw [withKey_ok _ h]
    rcases skipIf_cases (s.isHeld ⟨(s.reg x).toNat, h⟩) s with ⟨-, e⟩ | ⟨-, e⟩
    · exact Or.inl e
    · exact Or.inr (Or.inl e)
  · rw [withKey_fault _ h]
    exact Or.inr (Or.inr rfl)

theorem execSknp_cases (x : RegIdx) (s : State) :
    execSknp x s = .next { s with pc := s.pc + 2 } ∨ execSknp x s = .next s ∨
      execSknp x s = .next { s with rs := .fault .keyIndex (s.reg x).toNat } := by
  unfold execSknp
  by_cases h : (s.reg x).toNat < 16
  · rw [withKey_ok _ h]
    rcases skipIf_cases (!s.isHeld ⟨(s.reg x).toNat, h⟩) s with ⟨-, e⟩ | ⟨-, e⟩
    · exact Or.inl e
    · exact Or.inr (Or.inl e)
  · rw [withKey_fault _ h]
    exact Or.inr (Or.inr rfl)

theorem execRet_cases (s : State) :
    (∃ w rest, s.stack = w :: rest ∧ execRet s = .next { s with stack := rest, pc := w }) ∨
      (s.stack = [] ∧ execRet s = .next { s with rs := .fault .stackEmpty 0 }) := by
  unfold execRet
  split
  · next h => exact Or.inr ⟨h, rfl⟩
  · next w rest h => exact Or.inl ⟨w, rest, h, rfl⟩

/-- No instruction refuses and none ends in a fault outcome: what an instruction raises is latched in the next state. -/
theorem exec_answers (i : Instr) (s : State) : ∃ t, exec i s = .next t := by
  cases i with
  | ret => rcases execRet_cases s with ⟨_, _, _, h⟩ | ⟨_, h⟩ <;> exact ⟨_, h⟩
  | drw x y n => rcases execDrw_cases x y n s with ⟨_, h⟩ | ⟨_, h⟩ <;> exact ⟨_, h⟩
  | skp x => rcases execSkp_cases x s with h | h | h <;> exact ⟨_, h⟩
  | sknp x => rcases execSknp_cases x s with h | h | h <;> exact ⟨_, h⟩
  | ldB x => rcases storeBytes_cases (bcdDigits (s.reg x)) s (s.dataAddr 0) with ⟨_, h | ⟨_, _, h⟩⟩ <;> exact ⟨_, h⟩
  | storeRegs x => rcases storeBytes_cases (s.regValues x) s (s.dataAddr 0) with ⟨_, h | ⟨_, _, h⟩⟩ <;> exact ⟨_, h⟩
  | loadRegs x => rcases loadBytes_cases (regRange x) s (s.dataAddr 0) with ⟨_, h | ⟨_, _, h⟩⟩ <;> exact ⟨_, h⟩
  | _ => exact ⟨_, rfl⟩

end Sys2Proof.Machine
end

