-- ==== Sys2Proof/Laws/Flags.lean ====
section
/-! SUPPORT. Every flag and every small operand computation as a statement about numbers (spec/42_alu.md R152,
spec/40_execution_cycle.md R112, spec/41_flow.md R139). -/
namespace Sys2Proof.Machine

theorem zextAddr_toNat (nnn : BitVec 12) : (zextAddr nnn).toNat = nnn.toNat := by
  have := nnn.isLt
  simp [zextAddr]
  omega

/-- An address and a byte never overflow 16 bits. -/
theorem zextAddr_add_toNat (nnn : BitVec 12) (b : Byte) : (zextAddr nnn + b.setWidth 16).toNat = nnn.toNat + b.toNat := by
  have := nnn.isLt
  have := b.isLt
  rw [BitVec.toNat_add, zextAddr_toNat, BitVec.toNat_setWidth]
  omega

theorem carryFlag_eq (a b : Byte) : carryFlag a b = if 255 < a.toNat + b.toNat then 1 else 0 := by
  have := a.isLt
  have := b.isLt
  have h : (sum9 a b).getLsbD 8 = decide (255 < a.toNat + b.toNat) := by
    rw [sum9, BitVec.getLsbD, Nat.testBit_eq_decide_div_mod_eq, BitVec.toNat_add]
    have e : (a.toNat + b.toNat) % 512 = a.toNat + b.toNat := by omega
    simp
    omega
  rw [carryFlag, h]
  by_cases hc : 255 < a.toNat + b.toNat <;> simp [flagBit, hc]

theorem greaterFlag_toNat (a b : Byte) : (greaterFlag a b).toNat = if b.toNat < a.toNat then 1 else 0 := by
  by_cases h : b.toNat < a.toNat <;> simp [greaterFlag, flagBit, h]

theorem lsbFlag_toNat : ∀ a : Byte, (lsbFlag a).toNat = a.toNat % 2 := by decide

theorem msbFlag_eq : ∀ a : Byte, msbFlag a = if 128 ≤ a.toNat then 0x80 else 0 := by decide

theorem countDown_toNat (b : Byte) : (countDown b).toNat = b.toNat - 1 := by
  unfold countDown
  split
  · next h => subst h; rfl
  · next h =>
    have hb := b.isLt
    have : b.toNat ≠ 0 := fun e => h (BitVec.eq_of_toNat_eq e)
    rw [BitVec.toNat_sub]
    simp
    omega

end Sys2Proof.Machine
end

