-- ==== Sys2Proof/Laws/Load.lean ====
section
/-! SUPPORT. Everything the LOAD port can do (spec/70_reset_and_hazards.md R304 to R306), said once. -/
namespace Sys2Proof.Machine

theorem isReset_iff {s : State} : s.isReset = true ↔ s = { State.reset with params := s.params, env := s.env } := by
  rw [State.isReset, decide_eq_true_eq]

/-- In a reset state memory lists nothing, so it is canonical whatever FONT is. -/
theorem isReset_memWf {s : State} (h : s.isReset = true) : s.memWf = true := by
  rw [isReset_iff.1 h]
  rfl

/-- A load places the program, or says why not: too large in a reset state, not a reset state. -/
theorem loadProgram_cases (p : List Byte) (s : State) :
    (s.isReset = true ∧ p.length + 512 ≤ 4096 ∧
      loadProgram p s = .next { s with mem := (s.storeAll 512 p).mem, loaded := true }) ∨
    (s.isReset = true ∧ 4096 < p.length + 512 ∧ loadProgram p s = .refused .loadTooLarge) ∨
    (s.isReset = false ∧ loadProgram p s = .refused .loadOutsideReset) := by
  unfold loadProgram
  rw [memSize_eq, loadBase_eq]
  split
  · next hr =>
    split
    · next hl =>
      refine Or.inl ⟨hr, hl, ?_⟩
      rw [storeAll_frame]
    · next hl => exact Or.inr (Or.inl ⟨hr, by omega, rfl⟩)
  · next hr => exact Or.inr (Or.inr ⟨Bool.eq_false_iff.2 hr, rfl⟩)

/-- A state in which a program has been loaded is no reset state. -/
theorem isReset_loaded {s : State} (h : s.loaded = true) : s.isReset = false := by
  refine Bool.eq_false_iff.2 fun hr => ?_
  rw [isReset_iff.1 hr] at h
  cases h

end Sys2Proof.Machine
end

