-- ==== Sys2Proof/Laws/PerInstr.lean ====
section
/-! SUPPORT. Statements made of every instruction as syntax, one lemma per constructor. The family EncodesInRow: the encoder's
word has, under the mask of the instruction's row of spec/opcode_table.json, the row's match. -/
namespace Sys2Proof.Laws.EncodesInRow

/-- The word of i lies in the row of i. -/
def Statement (i : Instr) : Prop := encode i &&& rowMask i = rowMatch i

theorem nnn_masked (t : BitVec 4) (nnn : BitVec 12) : fmtNNN t nnn &&& 0xF000 = t ++ 0#12 := by
  have : (0xF000 : Word) = 0xF#4 ++ 0#12 := by decide
  rw [this, fmtNNN]
  refine BitVec.and_append.trans ?_
  congr 1
  · exact BitVec.and_allOnes
  · exact BitVec.and_zero

theorem xkk_masked (t : BitVec 4) (x : RegIdx) (kk : Byte) : fmtXKK t x kk &&& 0xF000 = t ++ 0#12 := by
  have h := nnn_masked t (nnnField (fmtXKK t x kk))
  have e := word_eq_fmtNNN (fmtXKK t x kk)
  rw [fmtXKK_topNibble] at e
  rw [← e] at h
  exact h

theorem xyn_masked (t : BitVec 4) (x y : RegIdx) (n : BitVec 4) : fmtXYN t x y n &&& 0xF000 = t ++ 0#12 := by
  have h := nnn_masked t (nnnField (fmtXYN t x y n))
  have e := word_eq_fmtNNN (fmtXYN t x y n)
  rw [fmtXYN_topNibble] at e
  rw [← e] at h
  exact h

theorem xy_masked (t : BitVec 4) (x y : RegIdx) (n : BitVec 4) :
    fmtXYN t x y n &&& 0xF00F = t ++ 0#4 ++ 0#4 ++ n := by
  have : (0xF00F : Word) = 0xF#4 ++ 0#4 ++ 0#4 ++ 0xF#4 := by decide
  rw [this, fmtXYN]
  refine BitVec.and_append.trans ?_
  congr 1
  · refine BitVec.and_append.trans ?_
    congr 1
    · refine BitVec.and_append.trans ?_
      congr 1
      · exact BitVec.and_allOnes
      · exact BitVec.and_zero
    · exact BitVec.and_zero
  · exact BitVec.and_allOnes

theorem x_masked (t : BitVec 4) (x : RegIdx) (kk : Byte) : fmtXKK t x kk &&& 0xF0FF = t ++ 0#4 ++ kk := by
  have : (0xF0FF : Word) = 0xF#4 ++ 0#4 ++ 0xFF#8 := by decide
  rw [this, fmtXKK]
  refine BitVec.and_append.trans ?_
  congr 1
  · refine BitVec.and_append.trans ?_
    congr 1
    · exact BitVec.and_allOnes
    · exact BitVec.and_zero
  · exact BitVec.and_allOnes

theorem cls : Statement (.cls) := by rfl
theorem ret : Statement (.ret) := by rfl
theorem sys (nnn : BitVec 12) : Statement (.sys nnn) := nnn_masked _ _
theorem jp (nnn : BitVec 12) : Statement (.jp nnn) := nnn_masked _ _
theorem call (nnn : BitVec 12) : Statement (.call nnn) := nnn_masked _ _
theorem seImm (x : RegIdx) (kk : Byte) : Statement (.seImm x kk) := xkk_masked _ _ _
theorem sneImm (x : RegIdx) (kk : Byte) : Statement (.sneImm x kk) := xkk_masked _ _ _
theorem seReg (x y : RegIdx) : Statement (.seReg x y) := xy_masked _ _ _ _
theorem ldImm (x : RegIdx) (kk : Byte) : Statement (.ldImm x kk) := xkk_masked _ _ _
theorem addImm (x : RegIdx) (kk : Byte) : Statement (.addImm x kk) := xkk_masked _ _ _
theorem ldReg (x y : RegIdx) : Statement (.ldReg x y) := xy_masked _ _ _ _
theorem orReg (x y : RegIdx) : Statement (.orReg x y) := xy_masked _ _ _ _
theorem andReg (x y : RegIdx) : Statement (.andReg x y) := xy_masked _ _ _ _
theorem xorReg (x y : RegIdx) : Statement (.xorReg x y) := xy_masked _ _ _ _
theorem addReg (x y : RegIdx) : Statement (.addReg x y) := xy_masked _ _ _ _
theorem subReg (x y : RegIdx) : Statement (.subReg x y) := xy_masked _ _ _ _
theorem shr (x y : RegIdx) : Statement (.shr x y) := xy_masked _ _ _ _
theorem subnReg (x y : RegIdx) : Statement (.subnReg x y) := xy_masked _ _ _ _
theorem shl (x y : RegIdx) : Statement (.shl x y) := xy_masked _ _ _ _
theorem sneReg (x y : RegIdx) : Statement (.sneReg x y) := xy_masked _ _ _ _
theorem ldI (nnn : BitVec 12) : Statement (.ldI nnn) := nnn_masked _ _
theorem jpV0 (nnn : BitVec 12) : Statement (.jpV0 nnn) := nnn_masked _ _
theorem rnd (x : RegIdx) (kk : Byte) : Statement (.rnd x kk) := xkk_masked _ _ _
theorem drw (x y : RegIdx) (n : BitVec 4) : Statement (.drw x y n) := xyn_masked _ _ _ _
theorem skp (x : RegIdx) : Statement (.skp x) := x_masked _ _ _
theorem sknp (x : RegIdx) : Statement (.sknp x) := x_masked _ _ _
theorem ldVxDT (x : RegIdx) : Statement (.ldVxDT x) := x_masked _ _ _
theorem ldVxK (x : RegIdx) : Statement (.ldVxK x) := x_masked _ _ _
theorem ldDTVx (x : RegIdx) : Statement (.ldDTVx x) := x_masked _ _ _
theorem ldSTVx (x : RegIdx) : Statement (.ldSTVx x) := x_masked _ _ _
theorem addI (x : RegIdx) : Statement (.addI x) := x_masked _ _ _
theorem ldF (x : RegIdx) : Statement (.ldF x) := x_masked _ _ _
theorem ldB (x : RegIdx) : Statement (.ldB x) := x_masked _ _ _
theorem storeRegs (x : RegIdx) : Statement (.storeRegs x) := x_masked _ _ _
theorem loadRegs (x : RegIdx) : Statement (.loadRegs x) := x_masked _ _ _

end Sys2Proof.Laws.EncodesInRow
end

