-- ==== Sys2Proof/Tests/Slice0.lean ====
section
/-! SUPPORT. Tests of the model on single steps, the expected values from spec/95_test_vectors.md (named in each docstring),
and for every obligation with hypotheses a state and operands that meet them. -/
namespace Sys2Proof.Tests
open Sys2Proof.Machine Sys2Proof.Claims

/-! ## Well-formedness -/

theorem test_sys_is_wellFormed : (Instr.sys 0x0E1).wellFormed = true := by decide

/-- 00E0 is CLS, not a SYS (R84). -/
theorem test_sys_0E0_is_illFormed : (Instr.sys 0x0E0).wellFormed = false := by decide

/-- 00EE is RET, not a SYS (R84). -/
theorem test_sys_0EE_is_illFormed : (Instr.sys 0x0EE).wellFormed = false := by decide

/-! ## Decoding: words put together from the formats of R82 -/

/-- FMT_E: `0000 / 0000 / 1110 / 0000` and `0000 / 0000 / 1110 / 1110`. -/
theorem test_decode_exact :
    decodeWord 0b0000000011100000 = some .cls ∧ decodeWord 0b0000000011101110 = some .ret := by decide

/-- FMT_NNN, nnn = 1010 1011 1100. -/
theorem test_decode_nnn :
    decodeWord 0b0000101010111100 = some (.sys 0xABC) ∧ decodeWord 0b0001101010111100 = some (.jp 0xABC) ∧
    decodeWord 0b0010101010111100 = some (.call 0xABC) ∧ decodeWord 0b1010101010111100 = some (.ldI 0xABC) ∧
    decodeWord 0b1011101010111100 = some (.jpV0 0xABC) := by decide

/-- FMT_XKK, x = 0101, kk = 1100 0011. -/
theorem test_decode_xkk :
    decodeWord 0b0011010111000011 = some (.seImm 5 0xC3) ∧ decodeWord 0b0100010111000011 = some (.sneImm 5 0xC3) ∧
    decodeWord 0b0110010111000011 = some (.ldImm 5 0xC3) ∧ decodeWord 0b0111010111000011 = some (.addImm 5 0xC3) ∧
    decodeWord 0b1100010111000011 = some (.rnd 5 0xC3) := by decide

/-- FMT_XY, x = 0001, y = 1110, the families 5 and 9. -/
theorem test_decode_xy_skips :
    decodeWord 0b0101000111100000 = some (.seReg 1 14) ∧ decodeWord 0b1001000111100000 = some (.sneReg 1 14) ∧
    decodeWord 0b0101000111100001 = none ∧ decodeWord 0b1001000111101000 = none := by decide

/-- FMT_XY, x = 0001, y = 1110, family 8 by its bottom nibble. -/
theorem test_decode_family8 :
    decodeWord 0b1000000111100000 = some (.ldReg 1 14) ∧ decodeWord 0b1000000111100001 = some (.orReg 1 14) ∧
    decodeWord 0b1000000111100010 = some (.andReg 1 14) ∧ decodeWord 0b1000000111100011 = some (.xorReg 1 14) ∧
    decodeWord 0b1000000111100100 = some (.addReg 1 14) ∧ decodeWord 0b1000000111100101 = some (.subReg 1 14) ∧
    decodeWord 0b1000000111100110 = some (.shr 1 14) ∧ decodeWord 0b1000000111100111 = some (.subnReg 1 14) ∧
    decodeWord 0b1000000111101110 = some (.shl 1 14) ∧ decodeWord 0b1000000111101000 = none := by decide

/-- FMT_XYN, x = 1101, y = 0010, n = 1001. -/
theorem test_decode_xyn : decodeWord 0b1101110100101001 = some (.drw 13 2 9) := by decide

/-- FMT_X, x = 0110, family E: kk = 1001 1110 and 1010 0001. -/
theorem test_decode_familyE :
    decodeWord 0b1110011010011110 = some (.skp 6) ∧ decodeWord 0b1110011010100001 = some (.sknp 6) ∧
    decodeWord 0b1110011010011111 = none := by decide

/-- FMT_X, x = 0110, family F by its bottom byte. -/
theorem test_decode_familyF :
    decodeWord 0b1111011000000111 = some (.ldVxDT 6) ∧ decodeWord 0b1111011000001010 = some (.ldVxK 6) ∧
    decodeWord 0b1111011000010101 = some (.ldDTVx 6) ∧ decodeWord 0b1111011000011000 = some (.ldSTVx 6) ∧
    decodeWord 0b1111011000011110 = some (.addI 6) ∧ decodeWord 0b1111011000101001 = some (.ldF 6) ∧
    decodeWord 0b1111011000110011 = some (.ldB 6) ∧ decodeWord 0b1111011001010101 = some (.storeRegs 6) ∧
    decodeWord 0b1111011001100101 = some (.loadRegs 6) ∧ decodeWord 0b1111011000000000 = none := by decide

/-- The high byte lies at the lower address (R62), and the host's numbering of a word's bits. -/
theorem test_decode_bytes :
    decode [0x6A, 0x02, 0xFF] = .ok (.ldImm 0xA 0x02, [0xFF]) ∧ decode [0x50, 0x01] = .error (.unknownOpcode 0x5001) ∧
    decode [0x6A] = .error .truncated ∧ decodeTableWord 16 0x8AB4 = some (.addReg 0xA 0xB) := by decide

/-! ## Single steps -/

/-- The reset state with a word at 0x200 and some registers set (the convention of spec/95_test_vectors.md). -/
def start (w : Word) (regs : List (RegIdx × Byte)) : State :=
  (regs.foldl (fun s r => s.setReg r.1 r.2) State.reset).withFetchWord 16 w.toNat

/-- The state after one step, where there is one. -/
def after (s : State) : Option State :=
  match step s with
  | .next t => some t
  | .fault _ => none
  | .refused _ => none

/-- What a step changed, for the vectors of Part V: two registers, VF, `pc`. -/
def seen (s : State) (i j : RegIdx) : Option (Byte × Byte × Byte × Word) :=
  (after s).map fun t => (t.reg i, t.reg j, t.reg 15, t.pc)

/-- The run state and `pc` after a step. -/
def stopped (s : State) : Option (RunState × Word) := (after s).map fun t => (t.rs, t.pc)

/-- `pc` after a step. -/
def nextPc (s : State) : Option Word := (after s).map fun t => t.pc

/-- Bytes of memory, `I` and the run state after a step. -/
def bytesAfter (s : State) (a n : Nat) : Option (List Byte × Word × RunState) :=
  (after s).map fun t => ((List.range n).map fun k => t.byteAt (a + k), t.I, t.rs)

/-- V-A1. -/
theorem test_add_carry : seen (start 0x8124 [(1, 0xFF), (2, 0x01)]) 1 2 = some (0x00, 0x01, 0x01, 0x202) := by decide
/-- V-A5: the carry overwrites the sum in VF. -/
theorem test_add_into_vf : seen (start 0x8F14 [(15, 0xF0), (1, 0x20)]) 1 2 = some (0x20, 0x00, 0x01, 0x202) := by decide
/-- V-A10: equal operands, strict flag 0. -/
theorem test_sub_equal : seen (start 0x8125 [(1, 0x33), (2, 0x33)]) 1 2 = some (0x00, 0x33, 0x00, 0x202) := by decide
/-- V-A14: the new flag is subtracted. -/
theorem test_sub_vf_operand : seen (start 0x81F5 [(1, 0x09), (15, 0x03)]) 1 2 = some (0x08, 0x00, 0x01, 0x202) := by decide
/-- V-A20: Vy is ignored. -/
theorem test_shr_ignores_vy : seen (start 0x8126 [(1, 0x04), (2, 0xFF)]) 1 2 = some (0x02, 0xFF, 0x00, 0x202) := by decide
/-- V-A17. -/
theorem test_shr_flag : seen (start 0x8106 [(1, 0x05)]) 1 2 = some (0x02, 0x00, 0x01, 0x202) := by decide
/-- V-A24. -/
theorem test_subn_wraps : seen (start 0x8127 [(1, 0x0A), (2, 0x03)]) 1 2 = some (0xF9, 0x03, 0x00, 0x202) := by decide
/-- V-A26. -/
theorem test_subn_into_vf : seen (start 0x8F17 [(15, 0x03), (1, 0x09)]) 1 2 = some (0x09, 0x00, 0x08, 0x202) := by decide
/-- V-A30: the flag is 0x80. -/
theorem test_shl_flag_is_80 : seen (start 0x810E [(1, 0x81)]) 1 2 = some (0x02, 0x00, 0x80, 0x202) := by decide
/-- V-A34. -/
theorem test_shl_of_vf : seen (start 0x8F0E [(15, 0x81)]) 1 2 = some (0x00, 0x00, 0x00, 0x202) := by decide
/-- V-A36: VF untouched. -/
theorem test_or : seen (start 0x8121 [(1, 0xF0), (2, 0x0F), (15, 0x55)]) 1 2 = some (0xFF, 0x0F, 0x55, 0x202) := by decide
/-- V-A37. -/
theorem test_and : seen (start 0x8122 [(1, 0xF3), (2, 0x3C), (15, 0x55)]) 1 2 = some (0x30, 0x3C, 0x55, 0x202) := by decide
/-- V-A38. -/
theorem test_xor : seen (start 0x8123 [(1, 0xF3), (2, 0x3C), (15, 0x55)]) 1 2 = some (0xCF, 0x3C, 0x55, 0x202) := by decide
/-- V-A40. -/
theorem test_ldReg : seen (start 0x8230 [(3, 0x7E)]) 2 3 = some (0x7E, 0x7E, 0x00, 0x202) := by decide
/-- V-A41: VF is an ordinary destination. -/
theorem test_ldImm_vf : seen (start 0x6FAB []) 1 2 = some (0x00, 0x00, 0xAB, 0x202) := by decide
/-- V-A43: wraps, VF untouched. -/
theorem test_addImm_wraps : seen (start 0x7002 [(0, 0xFF), (15, 0x07)]) 0 1 = some (0x01, 0x00, 0x07, 0x202) := by decide

/-- A state with random bytes supplied. -/
def withRandom (s : State) (bs : List Byte) : State := { s with env := { s.env with random := bs } }

/-- V-A45. -/
theorem test_rnd_masks : seen (withRandom (start 0xC30F []) [0xB7]) 3 1 = some (0x07, 0x00, 0x00, 0x202) := by decide
/-- V-A47: mask 0, whatever the draw. -/
theorem test_rnd_mask_zero : seen (withRandom (start 0xC300 []) [0xFF]) 3 1 = some (0x00, 0x00, 0x00, 0x202) := by decide

/-- V-F1, V-F2. -/
theorem test_seImm : nextPc (start 0x3000 []) = some 0x204 ∧ nextPc (start 0x3000 [(0, 0x04)]) = some 0x202 := by decide
/-- V-F3, V-F4. -/
theorem test_sneImm :
    nextPc (start 0x4210 [(2, 0x10)]) = some 0x202 ∧ nextPc (start 0x4211 [(2, 0x10)]) = some 0x204 := by decide
/-- V-F5, V-F6. -/
theorem test_seReg :
    nextPc (start 0x5120 [(1, 7), (2, 7)]) = some 0x204 ∧ nextPc (start 0x5120 [(1, 7), (2, 8)]) = some 0x202 := by decide
/-- V-F8, V-F10. -/
theorem test_sneReg :
    nextPc (start 0x9120 [(1, 7), (2, 8)]) = some 0x204 ∧ nextPc (start 0x9110 [(1, 3)]) = some 0x202 := by decide
/-- V-F12: no wrap at 12 bits. -/
theorem test_jpV0 : nextPc (start 0xBFFF [(0, 0xFF)]) = some 0x10FE := by decide
/-- V-F14: an odd target. -/
theorem test_jp_odd : nextPc (start 0x1201 []) = some 0x201 := by decide
/-- V-F15. -/
theorem test_call : (after (start 0x2ABC [])).map (fun t => (t.pc, t.stack)) = some (0xABC, [0x202]) := by decide
/-- P3: the return of spec/41_flow.md R131's example. -/
theorem test_ret :
    (after ((start 0x00EE []).setStack [0x0204])).map (fun t => (t.pc, t.stack)) = some (0x204, []) := by decide
/-- V-F25. -/
theorem test_ret_empty : stopped (start 0x00EE []) = some (.fault .stackEmpty 0, 0x202) := by decide
/-- V-F16, V-F17. -/
theorem test_sys : stopped (start 0x0000 []) = some (.run, 0x202) ∧ stopped (start 0x00E1 []) = some (.run, 0x202) := by
  decide
/-- V-F19, V-F22. -/
theorem test_unknown : stopped (start 0x5001 []) = some (.fault .unknownOpcode 0x5001, 0x202) ∧
    stopped (start 0x8008 []) = some (.fault .unknownOpcode 0x8008, 0x202) := by decide
/-- V-F26: the second fetch byte is out of range, `pc` stays. -/
theorem test_fetch_edge : stopped (State.reset.setPc 0xFFF) = some (.fault .memBounds 0x1000, 0xFFF) := by decide

/-- V-M1. -/
theorem test_ldI : (after (start 0xA123 [])).map (fun t => (t.I, t.pc)) = some (0x123, 0x202) := by decide
/-- V-M5: wraps at 16 bits. -/
theorem test_addI_wraps :
    (after ((start 0xF21E [(2, 0xFF)]).setI 0xFFFF)).map (fun t => (t.I, t.reg 15)) = some (0x00FE, 0) := by decide
/-- V-M11: not masked, 16-bit product. -/
theorem test_ldF : (after (start 0xF029 [(0, 0xFF)])).map (fun t => t.I) = some 0x04FB := by decide
/-- V-M18. -/
theorem test_ldB :
    bytesAfter ((start 0xF033 [(0, 0xFF)]).setI 0x300) 0x300 3 = some ([2, 5, 5], 0x300, .run) := by decide
/-- V-M20: the digits before the edge stand. -/
theorem test_ldB_edge :
    bytesAfter ((start 0xF033 [(0, 0xFF)]).setI 0xFFE) 0xFFE 2 = some ([2, 5], 0xFFE, .fault .memBounds 0x1000) := by decide
/-- V-M22: fits exactly. -/
theorem test_storeRegs_fits :
    bytesAfter ((start 0xF155 [(0, 0xAA), (1, 0xBB)]).setI 0xFFE) 0xFFE 2 = some ([0xAA, 0xBB], 0xFFE, .run) := by decide
/-- V-M23. -/
theorem test_storeRegs_edge :
    bytesAfter ((start 0xF255 [(0, 0xAA), (1, 0xBB), (2, 0xCC)]).setI 0xFFE) 0xFFE 2 =
      some ([0xAA, 0xBB], 0xFFE, .fault .memBounds 0x1000) := by decide
/-- V-M25: glyph 0, V3 untouched. -/
theorem test_loadRegs : seen (start 0xF265 [(3, 0x99)]) 0 3 = some (0xF0, 0x99, 0x00, 0x202) := by decide
/-- V-M26: V0 is loaded, V1 is not. -/
theorem test_loadRegs_edge :
    (after (((start 0xF165 [(1, 0x77)]).setI 0xFFF).storeByte 0xFFF 0x5A)).map (fun t => (t.reg 0, t.reg 1, t.rs)) =
      some (0x5A, 0x77, .fault .memBounds 0x1000) := by decide

/-- Some pixels of the display. -/
def pixels (t : State) (ps : List (Nat × Nat)) : List Bool := ps.map fun p => t.Pix.pixel p.1 p.2

/-- V-D1: glyph 7 at the origin; the first four are on, the last two, its neighbours, off. -/
theorem test_drw : (after ((start 0xD015 []).setI 0x23)).map
    (fun t => (pixels t [(0, 0), (3, 1), (2, 2), (1, 4), (4, 0), (0, 1)], t.reg 15)) =
      some ([true, true, true, true, false, false], 0) := by decide +kernel
/-- V-D2: clipped at the right and at the bottom. -/
theorem test_drw_clips : (after ((start 0xD125 [(1, 62), (2, 30)]).setI 0x23)).map
    (fun t => (pixels t [(62, 30), (63, 30), (0, 30), (62, 0)], t.reg 15)) =
      some ([true, true, false, false], 0) := by decide +kernel
/-- V-D5: a collision at (3, 0). -/
theorem test_drw_collides :
    (after (((start 0xD011 [(15, 9)]).setI 0x23).setPix (Display.clear.setBlock 3 0 (by decide)).1)).map
      (fun t => (pixels t [(0, 0), (2, 0), (3, 0)], t.reg 15)) = some ([true, true, false], 1) := by decide +kernel
/-- V-D13: CLS leaves VF. -/
theorem test_cls :
    (after ((start 0x00E0 [(15, 1)]).setPix (Display.clear.setBlock 63 31 (by decide)).1)).map
      (fun t => (pixels t [(0, 0), (63, 31)], t.reg 15)) = some ([false, false], 1) := by decide +kernel

/-- A state in which key 5 was pressed at 1000 and the clock stands at `now`. -/
def pressedFive (s : State) (now : Time) : State :=
  { recordEvent (.char 5 1000) s with env := { s.env with now := now } }

/-- V-K3, V-K4: the last held tick and the first that is not. -/
theorem test_skp : nextPc (pressedFive (start 0xE09E [(0, 5)]) 1099) = some 0x204 ∧
    nextPc (pressedFive (start 0xE09E [(0, 5)]) 1100) = some 0x202 := by decide
/-- V-K1, V-K7. -/
theorem test_sknp : nextPc (pressedFive (start 0xE0A1 [(0, 5)]) 1000) = some 0x202 ∧
    nextPc (start 0xE0A1 [(0, 5)]) = some 0x204 := by decide
/-- V-K9, V-K10. -/
theorem test_key_index : stopped (start 0xE09E [(0, 0x10)]) = some (.fault .keyIndex 0x10, 0x202) ∧
    stopped (start 0xE0A1 [(0, 0xFF)]) = some (.fault .keyIndex 0xFF, 0x202) := by decide
/-- V-K11. -/
theorem test_ldVxDT : seen ((start 0xF407 []).setDT 0x3A) 4 1 = some (0x3A, 0, 0, 0x202) := by decide
/-- V-K12. -/
theorem test_ldDTVx : (after (start 0xF015 [(0, 0x3C)])).map (fun t => t.DT) = some 0x3C := by decide
/-- V-K13. -/
theorem test_ldSTVx : (after (start 0xF118 [(1, 0x05)])).map (fun t => t.ST) = some 0x05 := by decide

/-- Before the next step `elapsed` ticks pass and the events arrive. -/
def input (s : State) (elapsed : Time) (arrivals : List Event) (disconnected : Bool) : State :=
  { s with env := { s.env with inputs := [{ elapsed := elapsed, arrivals := arrivals, disconnected := disconnected }] } }

/-- V-K16: an event drained before the Fx0A does not resolve it. -/
theorem test_ldVxK : (after (input (start 0xF30A []) 100 [.char 0xA 100] false)).map
    (fun t => (t.wait, t.pressTime 0xA, t.pc)) = some (some { dest := 3, validAfter := 100 }, some 100, 0x202) := by decide

/-- A state that waits for a key, as after `F30A` at 100. -/
def waiting : State := { start 0x1200 [] with wait := some { dest := 3, validAfter := 100 } }

/-- V-K14, V-K15: a press at the request's own time resolves, an earlier one is dropped; neither is held. -/
theorem test_wait_resolves :
    (after (input waiting 101 [.char 0xA 100] false)).map (fun t => (t.reg 3, t.wait, t.pc, t.pressTime 0xA)) =
      some (0x0A, none, 0x200, none) ∧
    (after (input waiting 101 [.char 0xA 99] false)).map (fun t => (t.reg 3, t.wait, t.Q, t.pressTime 0xA)) =
      some (0, some { dest := 3, validAfter := 100 }, [], none) := by decide
/-- P8 step 3: a toggle met while waiting stops the poll and pauses the machine. -/
theorem test_wait_meets_toggle :
    (after (input waiting 30 [.char 2 5, .toggle 20, .char 9 125] false)).map (fun t => (t.wait.isSome, t.Q, t.control)) =
      some (true, [.char 9 125], .paused) := by decide
/-- P7 step 23: a quit leaves the events behind it and the count of steps. -/
theorem test_quit : (after (input { start 0x1208 [] with phase := 2 } 0 [.quit 50, .char 1 50] false)).map
    (fun t => (t.rs, t.Q, t.phase, t.pc)) = some (.quit, [.char 1 50], 2, 0x200) := by decide
/-- R268: the channel is lost. -/
theorem test_channel_lost : stopped (input (start 0x1200 []) 0 [.char 1 0] true) = some (.fault .inputChannelLost 0, 0x200) := by
  decide

/-- The last step of a frame. -/
def lastOfFrame (s : State) : State := { s with phase := 10 }

/-- R110, R112, R118: a frame that ends waiting ticks the timers and presents the display. -/
theorem test_waiting_frame_end : (after (lastOfFrame (waiting.setDT 3))).map (fun t => (t.DT, t.phase, t.wait.isSome, t.out)) =
    some (2, 0, true, { frames := 1, shown := some { frame := 0, view := .picture Display.clear } }) := by decide +kernel
/-- R112, R118: at the frame end the timers tick, not below 0, and the display is presented. -/
theorem test_frame_end : (after (lastOfFrame ((start 0x1200 []).setDT 3))).map
    (fun t => (t.DT, t.ST, t.phase, t.out)) =
      some (2, 0, 0, { frames := 1, shown := some { frame := 0, view := .picture Display.clear } }) := by decide +kernel
/-- P7 step 8: a paused frame end shows the key map and ticks nothing. -/
theorem test_paused_frame_end :
    (after (lastOfFrame { (start 0x1200 []).setDT 3 with kbToggle := true })).map (fun t => (t.DT, t.phase, t.out)) =
      some (3, 0, { frames := 1, shown := some { frame := 0, view := .keymap } }) := by decide +kernel

/-- A FONT of another machine: its k-th byte is k. -/
def otherFont : Config.Font := Vector.ofFn fun k => BitVec.ofNat 8 k.val

/-- The reset state of a machine with that FONT. -/
def otherReset : State := { State.reset with params := { Config.defaultParams with font := otherFont } }

/-- Glyph 7 and the last byte of glyph F as spec/10_state.md R41 lists them. -/
theorem test_font : (List.range 5).map (fun k => State.reset.byteAt (35 + k)) = [0xF0, 0x10, 0x20, 0x40, 0x40] ∧
    State.reset.byteAt 0x4F = 0x80 ∧ State.reset.byteAt 0x50 = 0 ∧ State.reset.memWf = true := by decide

/-- R8(b): FONT is a parameter; a machine with another one resets to it, and can be loaded. -/
theorem test_other_font : otherReset.byteAt 0x00 = 0x00 ∧ otherReset.byteAt 0x4F = 0x4F ∧ otherReset.byteAt 0x50 = 0 ∧
    otherReset.isReset = true := by decide +kernel

/-- Bytes of memory after a load, where there is one. -/
def loadedBytes (p : List Byte) (s : State) (a n : Nat) : List Byte :=
  match loadProgram p s with
  | .next t => (List.range n).map fun k => t.byteAt (a + k)
  | _ => []

/-- P1: the program's bytes lie from 0x200. -/
theorem test_load : loadedBytes [0x6A, 0x02, 0x6B] State.reset 0x200 4 = [0x6A, 0x02, 0x6B, 0x00] := by decide +kernel

/-- R304: a second load is refused, also after an empty program. -/
theorem test_second_load : (match loadProgram [] State.reset with
    | .next t => (match loadProgram [0x6A] t with
      | .refused r => some r
      | _ => none)
    | _ => none) = some .loadOutsideReset := by decide +kernel

/-- Writing what an unlisted address reads as takes the entry out. -/
theorem test_memory_canonical :
    (((State.reset.storeByte 0x300 0x12).storeByte 0x300 0x00).mem, (State.reset.storeByte 0x001 0x90).mem) = ([], []) := by
  decide

/-! ## Witnesses: states and operands that meet the hypotheses of the obligations, clause by clause -/

theorem wit_DecodeInvertsEncode : (Instr.sys 0x123).wellFormed = true ∧ (Instr.drw 15 0 15).wellFormed = true := by decide

theorem wit_EncodeInvertsDecode : decode [0x12, 0x04, 0x00] = .ok (.jp 0x204, [0x00]) := by decide

theorem wit_FetchIsBigEndian : (State.reset.setPc 0xFFE).pc.toNat + 1 < 4096 := by decide

theorem wit_LoadSeesLatestStore : (State.reset.storeByte 0x300 7).memWf = true ∧ 4095 < 4096 := by decide

theorem wit_StoredWordIsFetched : (State.reset.setPc 0xFFE).memWf = true ∧ (State.reset.setPc 0xFFE).pc.toNat + 1 < 4096 := by
  decide

/-- A state other than reset that meets the invariant. -/
theorem start_inv : (start 0x1200 []).Inv :=
  ⟨by decide, by decide, by decide, by decide +kernel, fun w hw => absurd hw List.not_mem_nil, by decide, by decide, by decide⟩

theorem wit_StepKeepsInvariant : ∃ s t : State, s.Inv ∧ step s = .next t := ⟨start 0x1200 [], _, start_inv, rfl⟩

theorem wit_RunningMachineAlwaysSteps : (start 0x5001 []).rs = .run := by decide

/-- The largest program that fits, and one byte more, in a machine with a FONT of its own; a state that is no reset state;
a load, of an empty program; and a step. -/
theorem wit_LoadPlacesProgramOrReports :
    (∃ (p q : List Byte), otherReset = { State.reset with params := otherReset.params, env := otherReset.env } ∧
      p.length + 0x200 ≤ 4096 ∧ 0 < p.length ∧ 4096 < q.length + 0x200) ∧
    State.reset.setI 1 ≠ { State.reset with params := (State.reset.setI 1).params, env := (State.reset.setI 1).env } ∧
    (∃ t, loadProgram [] State.reset = .next t) ∧ ∃ t, step State.reset = .next t :=
  ⟨⟨List.replicate 3584 1, List.replicate 3585 1, rfl, by rw [List.length_replicate],
      by rw [List.length_replicate]; omega, by rw [List.length_replicate]; omega⟩,
    fun h => absurd (congrArg State.I h) (by decide),
    ⟨_, (if_pos (by decide +kernel)).trans (if_pos (by decide))⟩, _, rfl⟩

theorem wit_StepRunsDecodedInstruction :
    Fetches (start 0x6A02 []) ∧ (start 0x6A02 []).pc.toNat + 1 < 4096 ∧
      decode [(start 0x6A02 []).byteAt 0x200, (start 0x6A02 []).byteAt 0x201] = .ok (.ldImm 0xA 2, []) :=
  ⟨⟨rfl, rfl, rfl, rfl, rfl⟩, by decide, by decide⟩

theorem wit_UnknownOpcodeLatches : Fetches (start 0xFFFF []) ∧ (start 0xFFFF []).pc.toNat + 1 < 4096 ∧
    fetch (start 0xFFFF []) = .ok 0xFFFF ∧ decodeWord 0xFFFF = none :=
  ⟨⟨rfl, rfl, rfl, rfl, rfl⟩, by decide, by decide, by decide⟩

/-- The two places where a fetch runs out of memory: at 4095 its second byte, from 4096 on its first. -/
theorem wit_FetchOutOfRangeLatches :
    Fetches (State.reset.setPc 0xFFF) ∧ 4095 ≤ (State.reset.setPc 0xFFF).pc.toNat ∧
      Fetches (State.reset.setPc 0x1000) ∧ 4095 ≤ (State.reset.setPc 0x1000).pc.toNat :=
  ⟨⟨rfl, rfl, rfl, rfl, rfl⟩, by decide, ⟨rfl, rfl, rfl, rfl, rfl⟩, by decide⟩

/-- No input left; an input with two events and time passing; the port lost. -/
theorem wit_LostChannelLatches :
    State.reset.env.inputs = [] ∧
    (input State.reset 7 [.char 1 3, .toggle 4] false).env.inputs =
      [{ elapsed := 7, arrivals := [.char 1 3, .toggle 4], disconnected := false }] ∧
    ((input State.reset 0 [] true).rs = .run ∧
      (takeInput (input State.reset 0 [] true)).env.disconnected = true ∧ (input State.reset 0 [] true).kbQuit = false) := by
  decide

/-- A quit that arrives on a connected port, and a quit seen before with the port lost. -/
theorem wit_QuitEndsTheRun :
    ((input State.reset 0 [.quit 3] false).rs = .run ∧
      (takeInput (input State.reset 0 [.quit 3] false)).env.disconnected = false ∧
      (pollInput (takeInput (input State.reset 0 [.quit 3] false))).kbQuit = true) ∧
    ((input { State.reset with kbQuit := true } 0 [] true).kbQuit = true ∧
      (pollInput (takeInput (input { State.reset with kbQuit := true } 0 [] true))).kbQuit = true) := by decide

/-- The toggle set within a frame and at its end, with and without a wait pending, and the toggle clear. -/
theorem wit_ToggleGatesExecution :
    (State.reset.rs = .run ∧ State.reset.wait = none ∧
      (takeInput (input State.reset 0 [.toggle 3] false)).env.disconnected = false ∧
      (pollInput (takeInput (input State.reset 0 [.toggle 3] false))).kbQuit = false ∧
      (pollInput (takeInput (input State.reset 0 [.toggle 3] false))).kbToggle = true) ∧
    (waiting.wait ≠ none ∧ (pollInput (takeInput (input waiting 0 [.toggle 3] false))).kbQuit = false ∧
      (pollInput (takeInput (input waiting 0 [.toggle 3] false))).kbToggle = true) ∧
    (pollInput (takeInput State.reset)).kbToggle = false ∧
    State.reset.phase + 1 < State.reset.params.stepsPerFrame ∧
    (lastOfFrame State.reset).params.stepsPerFrame ≤ (lastOfFrame State.reset).phase + 1 := by decide

/-- A waiting step that answers; one within a frame and one at a frame end on a connected port with neither quit nor toggle
seen, the second resolving the wait. -/
theorem wit_WaitingStepExecutesNothing :
    (∃ t, waiting.wait = some { dest := 3, validAfter := 100 } ∧ step waiting = .next t) ∧
    (waiting.rs = .run ∧ (takeInput waiting).env.disconnected = false ∧
      (resolveWait { dest := 3, validAfter := 100 } (takeInput waiting)).kbQuit = false ∧
      (resolveWait { dest := 3, validAfter := 100 } (takeInput waiting)).kbToggle = false ∧
      waiting.phase + 1 < waiting.params.stepsPerFrame) ∧
    ((lastOfFrame waiting).params.stepsPerFrame ≤ (lastOfFrame waiting).phase + 1 ∧
      (resolveWait { dest := 3, validAfter := 100 } (takeInput (input (lastOfFrame waiting) 9 [.char 5 100] false))).wait =
        none) :=
  ⟨⟨_, rfl, rfl⟩, by decide, by decide⟩

/-- The three control states after a step: paused, waiting, running. -/
theorem wit_ControlStateFollowsToggleAndWait :
    (after { State.reset with kbToggle := true }).map (fun t => (t.rs, t.kbToggle)) = some (.run, true) ∧
    (after (start 0xF30A [])).map (fun t => (t.rs, t.kbToggle, t.wait.isSome)) = some (.run, false, true) ∧
    (after State.reset).map (fun t => (t.rs, t.kbToggle, t.wait)) = some (.run, false, none) := by decide

/-- A step that stays in RUN, within a frame and at its end, and one that does not. -/
theorem wit_StepsAreCountedModuloN :
    (after State.reset).map (fun t => t.rs) = some .run ∧ (after (lastOfFrame State.reset)).map (fun t => t.rs) = some .run ∧
    (after (start 0x00EE [])).map (fun t => t.rs) = some (.fault .stackEmpty 0) := by decide

theorem wit_TimersTickOncePerFrame :
    ((lastOfFrame State.reset).rs = .run ∧
      (lastOfFrame State.reset).params.stepsPerFrame ≤ (lastOfFrame State.reset).phase + 1 ∧
      (lastOfFrame State.reset).paused = false) ∧
    State.reset.phase + 1 < State.reset.params.stepsPerFrame ∧ ({ State.reset with paused := true } : State).paused = true ∧
    ({ State.reset with rs := .quit } : State).rs ≠ .run := by decide

theorem wit_FrameEndPresents :
    ((lastOfFrame State.reset).rs = .run ∧
      (lastOfFrame State.reset).params.stepsPerFrame ≤ (lastOfFrame State.reset).phase + 1 ∧
      (lastOfFrame State.reset).kbToggle = false ∧ ({ lastOfFrame State.reset with kbToggle := true } : State).kbToggle = true) ∧
    State.reset.phase + 1 < State.reset.params.stepsPerFrame ∧ ({ State.reset with rs := .quit } : State).rs ≠ .run := by decide

theorem wit_FaultFreezesTheMachine : ∃ t, step (lastOfFrame (start 0x00EE [])) = .next t ∧ t.rs = .fault .stackEmpty 0 :=
  ⟨_, rfl, rfl⟩

theorem wit_OnlyTimerLoadRaisesDelay :
    ∃ t, step (start 0xF015 [(0, 0x3C)]) = .next t ∧ (start 0xF015 [(0, 0x3C)]).DT.toNat < t.DT.toNat :=
  ⟨_, rfl, by decide⟩

theorem wit_QuitComesFromQuitEvent : ∃ t, step (input State.reset 0 [.quit 3] false) = .next t ∧ t.rs = .quit :=
  ⟨_, rfl, rfl⟩

theorem wit_ReturnPopsOrFaults : (State.reset.setStack [0x204]).stack = [0x204] ∧ State.reset.stack = [] := by decide

theorem wit_CallThenReturnRestores : ∃ u t : State, exec (.call 0x208) State.reset = .next t ∧ u.stack = t.stack :=
  ⟨State.reset.setStack [0x200], _, rfl, rfl⟩

/-- 0x000 and the words beside the two exact ones. -/
theorem wit_SysDoesNothing : (0x000 : BitVec 12) ≠ 0x0E0 ∧ (0x0E1 : BitVec 12) ≠ 0x0E0 ∧ (0x0E1 : BitVec 12) ≠ 0x0EE ∧
    (0x0ED : BitVec 12) ≠ 0x0EE := by decide

theorem wit_ImmediateSkips : State.reset.reg 15 = 0x00 ∧ State.reset.reg 15 ≠ 0x04 := by decide

theorem wit_RegisterSkips : (0 < 1 ∧ 15 < 16) ∧ State.reset.reg 1 = State.reset.reg 2 ∧
    (State.reset.setReg 1 7).reg 1 ≠ (State.reset.setReg 1 7).reg 2 := by decide

/-- x = F and x not F, y = F and y not F. -/
theorem wit_flag_operands : (3 : RegIdx) ≠ 15 ∧ (2 : RegIdx) ≠ 15 ∧ (15 : RegIdx) = 15 := by decide

theorem wit_RandomByteIsMasked : (withRandom State.reset [0xB7, 0x01]).env.random = 0xB7 :: [0x01] := by decide

/-- The last place where three digits fit, and the first where they do not. -/
theorem wit_BcdStoresDigits :
    (State.reset.setI 0xFFD).memWf = true ∧ (State.reset.setI 0xFFD).dataAddr 2 < 4096 ∧
    4096 ≤ (State.reset.setI 0xFFE).dataAddr 2 ∧ (State.reset.setI 0xFFE).dataAddr 1 < 4096 := by decide

theorem wit_RegisterRangeIsStored :
    (State.reset.setI 0xFF0).memWf = true ∧ (State.reset.setI 0xFF0).dataAddr (15 : RegIdx).val < 4096 ∧
    (0 : RegIdx) ≤ 15 ∧ 4096 ≤ (State.reset.setI 0xFF1).dataAddr (15 : RegIdx).val := by decide

theorem wit_RegisterRangeIsLoaded :
    (State.reset.setI 0xFFF).dataAddr (0 : RegIdx).val < 4096 ∧ 4096 ≤ (State.reset.setI 0xFFF).dataAddr (1 : RegIdx).val ∧
    (0 : RegIdx) ≤ 1 ∧ (1 : RegIdx) < 2 := by decide

theorem wit_SetBlockTogglesAndReports : (63 < 64 ∧ 31 < 32) ∧ ((62 : Nat) ≠ 63 ∨ (31 : Nat) ≠ 31) := by decide

/-- No row, and the last 15 bytes of memory; a collision, and none. -/
theorem wit_DrawTogglesCoveredPixels :
    spriteInRange (State.reset.setI 0xFFFF) 0 ∧ spriteInRange (State.reset.setI 0xFF1) 15 ∧
    ((0 : Nat) < 64 ∧ (0 : Nat) < 32 ∧ drawCovers State.reset 0 0 1 0 0 = true ∧
      (State.reset.setPix (Display.clear.setBlock 0 0 (by decide)).1).Pix.pixel 0 0 = true) ∧
    State.reset.Pix.pixel 0 0 = false :=
  ⟨Or.inl rfl, Or.inr (by decide), by decide +kernel, by decide +kernel⟩

theorem wit_DrawOutOfRangeLatches : ¬ spriteInRange (State.reset.setI 0xFFF) 2 := by
  rintro (h | h)
  · exact absurd h (by decide)
  · exact absurd h (by decide)

/-- The state between the two draws may differ from the first in its VF. -/
theorem wit_DoubleDrawRestores : ∃ t : State, spriteInRange State.reset 5 ∧ exec (.drw 0 1 5) State.reset = .next t ∧
    t.I = State.reset.I ∧ t.reg 0 = State.reset.reg 0 ∧ t.reg 1 = State.reset.reg 1 ∧ t.mem = State.reset.mem :=
  ⟨_, Or.inr (by decide), rfl, rfl, by decide, by decide, rfl⟩

theorem wit_RecordEventUpdatesKeyboard : (4 : Key) ≠ 5 := by decide

/-- No wait; a queue without a quit, one with a quit in the middle, and a quit seen before. -/
theorem wit_DrainRecordsInOrder :
    State.reset.wait = none ∧
    (State.reset.kbQuit = false ∧ ∀ e ∈ [Event.char 5 7, .toggle 8], isQuit e = false) ∧
    ({ State.reset with Q := [.char 5 7, .quit 8, .char 1 9] } : State).Q = [Event.char 5 7] ++ .quit 8 :: [.char 1 9] ∧
    ({ State.reset with kbQuit := true } : State).kbQuit = true := by decide

theorem wit_HeldWithinWindow : State.reset.pressTime 5 = none ∧ (pressedFive State.reset 0).pressTime 5 = some 1000 := by
  decide

/-- A wait pending, a quit seen before, an early press, then each of the events that decide; a press at the request's own
time qualifies. -/
theorem wit_WaitResolvesOnQualifyingKey :
    waiting.wait = some { dest := 3, validAfter := 100 } ∧ ({ waiting with kbQuit := true } : State).kbQuit = true ∧
    State.reset.kbQuit = false ∧ (∀ e ∈ [Event.char 5 99], early { dest := 3, validAfter := 100 } e = true) ∧ 100 ≤ 100 ∧
    ({ State.reset with Q := [.char 5 99, .char 6 100, .quit 101] } : State).Q =
      [Event.char 5 99] ++ .char 6 100 :: [.quit 101] ∧
    ({ State.reset with Q := [.char 5 99, .toggle 0] } : State).Q = [Event.char 5 99] ++ .toggle 0 :: [] ∧
    ({ State.reset with Q := [.quit 0] } : State).Q = [] ++ .quit 0 :: [] := by decide

/-- The last key number and the first that is none; a key held and one not held. -/
theorem wit_KeySkips : ((State.reset.setReg 0 0x0F).reg 0).toNat = (15 : Key).val ∧
    15 < ((State.reset.setReg 0 0x10).reg 0).toNat ∧ (pressedFive State.reset 1099).isHeld 5 = true ∧
    (pressedFive State.reset 1100).isHeld 5 = false := by decide

theorem wit_RegistersWrittenAsListed :
    ∃ t, exec (.addReg 1 2) State.reset = .next t ∧ mayWriteReg 2 (.addReg 1 2) = false := ⟨_, rfl, by decide⟩

theorem wit_BytesWrittenAsAddressed : ∃ t, (State.reset.setI 0x300).memWf = true ∧
    exec (.ldB 0) (State.reset.setI 0x300) = .next t ∧ ¬ mayStore (State.reset.setI 0x300) 0x303 (.ldB 0) :=
  ⟨_, by decide, rfl, fun h => absurd h.2 (by decide)⟩

/-- For the two statements over every instruction: a plain one, and one that faults. -/
theorem wit_exec_answers : (∃ t, exec (.ldI 0x300) State.reset = .next t) ∧
    ∃ t, exec .ret State.reset = .next t ∧ t.rs = .fault .stackEmpty 0 := ⟨⟨_, rfl⟩, _, rfl, rfl⟩

end Sys2Proof.Tests
end

section
/-! PROOFS. The rules of a step in RUN on a usable port, and the end of a run by a quit (spec/40_execution_cycle.md R102,
R105). -/
namespace Sys2Proof.Machine

/-- A poll with no wait pending writes no register (R103). -/
theorem pollInput_V_of_no_wait {s : State} (h : s.wait = none) : (pollInput s).V = s.V := by
  simp only [pollInput, h]
  rw [drainEvents_frame]

theorem polled_V_of_no_wait {s : State} (h : s.wait = none) : (pollInput (takeInput s)).V = s.V :=
  calc (pollInput (takeInput s)).V = (takeInput s).V := pollInput_V_of_no_wait ((takeInput_wait s).trans h)
    _ = s.V := by rw [takeInput_frame]

/-- With the port connected, or lost after a quit has been seen (R268), a step in RUN is the poll followed by steps c to e
of R102. -/
theorem step_of_usable_port {s : State} (hrun : s.rs = .run)
    (hport : (takeInput s).env.disconnected = false ∨ s.kbQuit = true) :
    step s = finishStep (controlStep s.wait.isSome (pollInput (takeInput s))) := by
  have hguard : ¬ ((takeInput s).env.disconnected = true ∧ s.kbQuit = false) := by
    rcases hport with hconn | hquit
    · simp [hconn]
    · simp [hquit]
  simp [step, hrun, runStep, engineStep, hguard]

/-- Step c of R102 comes before the toggle, the wait and the fetch are looked at (R105). -/
theorem controlStep_of_quit (wasWaiting : Bool) {s : State} (hquit : s.kbQuit = true) :
    controlStep wasWaiting s = .next (enterQuit s) := if_pos hquit

/-- A state in QUIT is not counted: the frame neither advances nor ends (R101). -/
theorem countStep_enterQuit (s : State) : countStep (enterQuit s) = enterQuit s :=
  countStep_notRun (by simp [enterQuit])

/-- There is no step in QUIT (R102, R105). -/
theorem step_of_quit {s : State} (h : s.rs = .quit) : step s = .refused .sessionEnded := by
  simp [step, h]

/-- The exact next state of a step that sees a quit (R105). -/
theorem step_of_seen_quit {s : State} (hrun : s.rs = .run)
    (hport : (takeInput s).env.disconnected = false ∨ s.kbQuit = true)
    (hquit : (pollInput (takeInput s)).kbQuit = true) :
    step s = .next (enterQuit (pollInput (takeInput s))) := by
  rw [step_of_usable_port hrun hport, controlStep_of_quit _ hquit, finishStep, countStep_enterQuit]

/-- What entering QUIT after the poll leaves of the state the step started from: all but the wait request, the keyboard
state, the environment and, where a wait was pending, the registers. -/
theorem enterQuit_polled_frame (s : State) :
    enterQuit (pollInput (takeInput s)) =
      { s with
        V := (pollInput (takeInput s)).V
        lastPress := (pollInput (takeInput s)).lastPress
        kbQuit := (pollInput (takeInput s)).kbQuit
        kbToggle := (pollInput (takeInput s)).kbToggle
        Q := (pollInput (takeInput s)).Q
        wait := none
        rs := .quit
        env := (takeInput s).env } :=
  congrArg enterQuit (polled_frame s)

/-- Settles O17: the step answers `enterQuit` of the polled state, whose frame gives every field, and QUIT has no step. -/
theorem quitEndsTheRun : Obligations.QuitEndsTheRun := by
  intro s hrun hport hquit
  refine ⟨_, step_of_seen_quit hrun hport hquit, ?_⟩
  have hstop : ∀ u, step (enterQuit (pollInput (takeInput s))) ≠ .next u := fun u hu => by
    rw [step_of_quit rfl] at hu
    nomatch hu
  have hV : s.wait = none → (enterQuit (pollInput (takeInput s))).V = s.V := polled_V_of_no_wait
  rw [enterQuit_polled_frame] at hstop hV ⊢
  exact ⟨rfl, rfl, rfl, rfl, rfl, rfl, rfl, rfl, rfl, rfl, rfl, hV, hstop⟩

end Sys2Proof.Machine
end

section
/-! PROOFS. The words of R82 given as numbers are the encoder's, and the decoder reads every well-formed instruction
back from its word (spec/30_encoding.md R82, R84, R87). -/
namespace Sys2Proof
open Sys2Proof.Claims

theorem wordNNN_eq_fmtNNN (t : BitVec 4) (nnn : BitVec 12) : wordNNN t.toNat nnn = fmtNNN t nnn := by
  rw [wordNNN, ← fmtNNN_toNat, BitVec.ofNat_toNat, BitVec.setWidth_eq]

theorem wordXKK_eq_fmtXKK (t : BitVec 4) (x : RegIdx) (kk : Byte) : wordXKK t.toNat x kk.toNat = fmtXKK t x kk := by
  rw [wordXKK, ← fmtXKK_toNat, BitVec.ofNat_toNat, BitVec.setWidth_eq]

theorem sysOperandOk_iff (nnn : BitVec 12) : sysOperandOk nnn = true ↔ nnn ≠ 0x0E0 ∧ nnn ≠ 0x0EE := by
  rw [sysOperandOk, Bool.and_eq_true, bne_iff_ne, bne_iff_ne]
  exact Iff.rfl

/-- The one condition of `Instr.wellFormed` keeps SYS off the two exact words, which the decoder tests first (R84). -/
theorem decodeFamily0_fmtNNN {nnn : BitVec 12} (h : sysOperandOk nnn = true) :
    decodeFamily0 (fmtNNN 0 nnn) = .sys nnn := by
  obtain ⟨hE0, hEE⟩ := (sysOperandOk_iff nnn).1 h
  have hcls : fmtNNN 0 nnn ≠ 0x00E0 := fun e => hE0 (by rw [← fmtNNN_nnn 0 nnn, e]; decide)
  have hret : fmtNNN 0 nnn ≠ 0x00EE := fun e => hEE (by rw [← fmtNNN_nnn 0 nnn, e]; decide)
  rw [decodeFamily0, if_neg hcls, if_neg hret, fmtNNN_nnn]

/-- Every well-formed instruction is read back from its word. -/
theorem decodeWord_encode (i : Instr) (h : i.wellFormed = true) : decodeWord (encode i) = some i := by
  cases i with
  | cls | ret => decide
  | sys nnn => simpa [decodeWord, encode] using decodeFamily0_fmtNNN h
  | jp | call | ldI | jpV0 => simp [decodeWord, encode]
  | seImm | sneImm | ldImm | addImm | rnd => simp [decodeWord, encode]
  | seReg | sneReg | drw => simp [decodeWord, encode]
  | ldReg | orReg | andReg | xorReg | addReg | subReg | shr | subnReg | shl => simp [decodeWord, encode, decodeFamily8]
  | skp | sknp => simp [decodeWord, encode, decodeFamilyE]
  | ldVxDT | ldVxK | ldDTVx | ldSTVx | addI | ldF | ldB | storeRegs | loadRegs =>
    simp [decodeWord, encode, decodeFamilyF]

/-- A word shown to be that of a well-formed instruction decodes to it. -/
theorem decodeWord_of_eq_encode {op : Word} (i : Instr) (h : i.wellFormed = true) (hop : op = encode i) :
    decodeWord op = some i := by
  rw [hop, decodeWord_encode i h]

end Sys2Proof
end

section
/-! PROOFS. Control transfer (spec/41_flow.md): what the jumps, CALL, RET, SYS and the immediate skips answer. -/
namespace Sys2Proof.Machine
open Sys2Proof.Claims

theorem exec_jp (nnn : BitVec 12) (s : State) : exec (.jp nnn) s = .next { s with pc := zextAddr nnn } := rfl

theorem exec_jpV0 (nnn : BitVec 12) (s : State) :
    exec (.jpV0 nnn) s = .next { s with pc := zextAddr nnn + (s.reg 0).setWidth 16 } := rfl

theorem exec_call (nnn : BitVec 12) (s : State) :
    exec (.call nnn) s = .next { s with stack := s.pc :: s.stack, pc := zextAddr nnn } := rfl

theorem exec_ret_cons {s : State} {w : Word} {rest : List Word} (h : s.stack = w :: rest) :
    exec .ret s = .next { s with stack := rest, pc := w } := by
  rcases execRet_cases s with ⟨w', rest', hstack, hret⟩ | ⟨hstack, -⟩
  · obtain ⟨rfl, rfl⟩ := List.cons_eq_cons.1 (h.symm.trans hstack)
    exact hret
  · exact absurd (h.symm.trans hstack) (List.cons_ne_nil w rest)

theorem exec_ret_nil {s : State} (h : s.stack = []) : exec .ret s = .next { s with rs := .fault .stackEmpty 0 } := by
  rcases execRet_cases s with ⟨w, rest, hstack, -⟩ | ⟨-, hret⟩
  · exact absurd (hstack.symm.trans h) (List.cons_ne_nil w rest)
  · exact hret

theorem exec_sys (nnn : BitVec 12) (s : State) : exec (.sys nnn) s = .next s := rfl

theorem exec_seImm (x : RegIdx) (kk : Byte) (s : State) : exec (.seImm x kk) s = skipIf (s.reg x == kk) s := rfl

theorem exec_sneImm (x : RegIdx) (kk : Byte) (s : State) : exec (.sneImm x kk) s = skipIf (s.reg x != kk) s := rfl

/-- On equal operands SE skips and SNE does not (R135 to R138). -/
theorem skipIf_of_eq {a b : Byte} (h : a = b) (s : State) :
    skipIf (a == b) s = .next { s with pc := s.pc + 2 } ∧ skipIf (a != b) s = .next s := by
  rw [bne, beq_iff_eq.2 h]
  exact ⟨skipIf_true s, skipIf_false s⟩

/-- On unequal operands SNE skips and SE does not (R135 to R138). -/
theorem skipIf_of_ne {a b : Byte} (h : a ≠ b) (s : State) :
    skipIf (a == b) s = .next s ∧ skipIf (a != b) s = .next { s with pc := s.pc + 2 } := by
  rw [bne, beq_eq_false_iff_ne.2 h]
  exact ⟨skipIf_false s, skipIf_true s⟩

/-- Settles O27: the target is nnn, and nnn + V0 has room in 16 bits (`zextAddr_add_toNat`). -/
theorem jumpsSetPc : Obligations.JumpsSetPc := by
  intro s nnn
  have hjp := decodeWord_of_eq_encode (.jp nnn) rfl (wordNNN_eq_fmtNNN 0x1 nnn)
  have hjpV0 := decodeWord_of_eq_encode (.jpV0 nnn) rfl (wordNNN_eq_fmtNNN 0xB nnn)
  exact ⟨hjp, hjpV0, ⟨_, exec_jp nnn s, zextAddr_toNat nnn, rfl⟩,
    ⟨_, exec_jpV0 nnn s, zextAddr_add_toNat nnn (s.reg 0), rfl⟩⟩

/-- Settles O28: the push has no bound on its depth, and `pc` on entry is that of the following instruction. -/
theorem callPushesReturnAddress : Obligations.CallPushesReturnAddress := by
  intro s nnn
  have hcall := decodeWord_of_eq_encode (.call nnn) rfl (wordNNN_eq_fmtNNN 0x2 nnn)
  exact ⟨hcall, _, exec_call nnn s, rfl, zextAddr_toNat nnn, rfl⟩

/-- Settles O29, by the two cases of `execRet_cases`. -/
theorem returnPopsOrFaults : Obligations.ReturnPopsOrFaults :=
  ⟨decodeWord_encode .ret rfl, fun _ => ⟨fun _ _ => exec_ret_cons, exec_ret_nil⟩⟩

/-- Settles O31: an nnn other than 0E0 and 0EE is the operand of a well-formed SYS. -/
theorem sysDoesNothing : Obligations.SysDoesNothing := by
  intro s nnn hE0 hEE
  have hwf : (Instr.sys nnn).wellFormed = true := (sysOperandOk_iff nnn).2 ⟨hE0, hEE⟩
  exact ⟨decodeWord_of_eq_encode (.sys nnn) hwf (wordNNN_eq_fmtNNN 0x0 nnn), exec_sys nnn s⟩

/-- Settles O32: SE skips on V[x] = kk and SNE on V[x] ≠ kk, by `skipIf_of_eq` and `skipIf_of_ne`. -/
theorem immediateSkips : Obligations.ImmediateSkips := by
  intro s x kk
  have hse := decodeWord_of_eq_encode (.seImm x kk) rfl (wordXKK_eq_fmtXKK 0x3 x kk)
  have hsne := decodeWord_of_eq_encode (.sneImm x kk) rfl (wordXKK_eq_fmtXKK 0x4 x kk)
  rw [exec_seImm, exec_sneImm]
  exact ⟨hse, hsne, fun h => skipIf_of_eq h s, fun h => skipIf_of_ne h s⟩

end Sys2Proof.Machine
end

section
/-! PROOFS. The register loads and the immediate add (spec/42_alu.md R153 to R155): each writes one register and nothing
else. -/
namespace Sys2Proof.Machine
open Sys2Proof.Claims

theorem wordXYN_eq_fmtXYN (t : BitVec 4) (x y : RegIdx) (n : BitVec 4) :
    wordXYN t.toNat x y n.toNat = fmtXYN t x y n := by
  rw [wordXYN, ← fmtXYN_toNat, BitVec.ofNat_toNat, BitVec.setWidth_eq]

theorem exec_ldImm (x : RegIdx) (kk : Byte) (s : State) : exec (.ldImm x kk) s = .next (s.setReg x kk) := rfl

theorem exec_addImm (x : RegIdx) (kk : Byte) (s : State) :
    exec (.addImm x kk) s = .next (s.setReg x (s.reg x + kk)) := rfl

theorem exec_ldReg (x y : RegIdx) (s : State) : exec (.ldReg x y) s = .next (s.setReg x (s.reg y)) := rfl

theorem otherRegs_setReg (x : RegIdx) (b : Byte) (s : State) : OtherRegs x s (s.setReg x b) :=
  fun _ hj => reg_setReg_ne s b hj

theorem onlyRegs_setReg (x : RegIdx) (b : Byte) (s : State) : OnlyRegs s (s.setReg x b) := rfl

/-- Settles O34: all three answer `setReg x`, which keeps the other registers, VF among them, and every other field; the
sum of two bytes is taken modulo 256. -/
theorem registerLoadsAndImmediateAdd : Obligations.RegisterLoadsAndImmediateAdd := by
  intro s x y kk
  have hldImm := decodeWord_of_eq_encode (.ldImm x kk) rfl (wordXKK_eq_fmtXKK 0x6 x kk)
  have haddImm := decodeWord_of_eq_encode (.addImm x kk) rfl (wordXKK_eq_fmtXKK 0x7 x kk)
  have hldReg := decodeWord_of_eq_encode (.ldReg x y) rfl (wordXYN_eq_fmtXYN 0x8 x y 0x0)
  have hsum : ((s.setReg x (s.reg x + kk)).reg x).toNat = ((s.reg x).toNat + kk.toNat) % 256 := by
    rw [reg_setReg_self, BitVec.toNat_add]
  exact ⟨hldImm, haddImm, hldReg,
    ⟨_, exec_ldImm x kk s, reg_setReg_self s x kk, otherRegs_setReg x _ s, onlyRegs_setReg x _ s⟩,
    ⟨_, exec_addImm x kk s, hsum, otherRegs_setReg x _ s, onlyRegs_setReg x _ s⟩,
    ⟨_, exec_ldReg x y s, reg_setReg_self s x _, otherRegs_setReg x _ s, onlyRegs_setReg x _ s⟩⟩

end Sys2Proof.Machine
end

section
/-! PROOFS. The load of the index register (spec/43_index_memory.md R181): the 12-bit operand, zero-extended, and nothing
else. -/
namespace Sys2Proof.Machine

theorem exec_ldI (nnn : BitVec 12) (s : State) : exec (.ldI nnn) s = .next (s.setI (zextAddr nnn)) := rfl

/-- Settles O40: the word is the encoding of LD I, and `setI` writes the zero-extended operand, whose number is nnn. -/
theorem indexLoad : Obligations.IndexLoad := by
  intro s nnn
  have hldI := decodeWord_of_eq_encode (.ldI nnn) rfl (wordNNN_eq_fmtNNN 0xA nnn)
  exact ⟨hldI, _, exec_ldI nnn s, zextAddr_toNat nnn, rfl⟩

end Sys2Proof.Machine
end

section
/-! PROOFS. CLS and the one-pixel toggle of the display buffer (spec/44_display.md R201, R202, R204). -/
namespace Sys2Proof.Machine

theorem exec_cls (s : State) : exec .cls s = .next (s.setPix Display.clear) := rfl

theorem pixel_setBlock_self (d : Display) {x y : Nat} (h : x < 64 ∧ y < 32) :
    (d.setBlock x y h).1.pixel x y = !d.pixel x y := by
  rw [pixel_setBlock, decide_eq_true rfl, decide_eq_true rfl, Bool.and_self, Bool.xor_true]

theorem pixel_setBlock_ne (d : Display) {x y px py : Nat} (h : x < 64 ∧ y < 32) (hne : px ≠ x ∨ py ≠ y) :
    (d.setBlock x y h).1.pixel px py = d.pixel px py := by
  have hother : (decide (px = x) && decide (py = y)) = false := by
    rw [Bool.and_eq_false_iff, decide_eq_false_iff_not, decide_eq_false_iff_not]
    exact hne
  rw [pixel_setBlock, hother, Bool.xor_false]

/-- Settles O45: CLS answers `setPix` of the cleared buffer, which writes the display alone. -/
theorem clearTurnsAllPixelsOff : Obligations.ClearTurnsAllPixelsOff :=
  ⟨decodeWord_encode .cls rfl, fun s => ⟨_, exec_cls s, rfl, fun px py _ _ => pixel_clear px py⟩⟩

/-- Settles O46, by the pixel rule of `setBlock` at its own coordinates and elsewhere. -/
theorem setBlockTogglesAndReports : Obligations.SetBlockTogglesAndReports :=
  fun d _ _ h => ⟨setBlock_report d h, pixel_setBlock_self d h, fun _ _ => pixel_setBlock_ne d h⟩

end Sys2Proof.Machine
end

section
/-! PROOFS. The keyboard controller (spec/45_keyboard_timers.md R222, R223): what recording one event does, and DrainEvents
over the queue. -/
namespace Sys2Proof.Machine
open Sys2Proof.Claims

theorem recordEvent_toggle (ts : Time) (s : State) :
    recordEvent (.toggle ts) s = { s with kbToggle := !s.kbToggle } := rfl

theorem recordEvent_quit (ts : Time) (s : State) : recordEvent (.quit ts) s = { s with kbQuit := true } := rfl

theorem recordEvent_char_frame (k : Key) (ts : Time) (s : State) :
    recordEvent (.char k ts) s = { s with lastPress := (recordEvent (.char k ts) s).lastPress } := rfl

theorem pressTime_recordEvent_char_self (k : Key) (ts : Time) (s : State) :
    (recordEvent (.char k ts) s).pressTime k = some ts :=
  Vector.getElem_set_self k.isLt

theorem pressTime_recordEvent_char_ne {j k : Key} (h : j ≠ k) (ts : Time) (s : State) :
    (recordEvent (.char k ts) s).pressTime j = s.pressTime j :=
  Vector.getElem_set_ne k.isLt j.isLt (Fin.val_ne_of_ne h.symm)

/-- An event other than a quit leaves the quit flag. -/
theorem recordEvent_kbQuit {e : Event} (h : isQuit e = false) (s : State) : (recordEvent e s).kbQuit = s.kbQuit := by
  cases e with
  | char | toggle => rfl
  | quit => nomatch h

/-- Events without a quit at the head of the queue are recorded one after another, and the loop of R223 goes on with the
quit flag still clear. -/
theorem drainFrom_append {rest : List Event} : ∀ {before : List Event} {s : State}, s.kbQuit = false →
    (∀ e ∈ before, isQuit e = false) →
    drainFrom (before ++ rest) s = drainFrom rest (before.foldl (fun u e => recordEvent e u) s) ∧
      (before.foldl (fun u e => recordEvent e u) s).kbQuit = false
  | [], _, hs, _ => ⟨rfl, hs⟩
  | e :: before, s, hs, hbefore => by
    obtain ⟨he, htail⟩ := List.forall_mem_cons.1 hbefore
    have hnext : (recordEvent e s).kbQuit = false := (recordEvent_kbQuit he s).trans hs
    have htaken : drainFrom (e :: (before ++ rest)) s = drainFrom (before ++ rest) (recordEvent e s) :=
      if_neg (by simp [hs])
    obtain ⟨hdrain, hquit⟩ := drainFrom_append (rest := rest) hnext htail
    exact ⟨htaken.trans hdrain, hquit⟩

/-- A quit at the head of the queue is recorded, and the loop of R223 stops before the events behind it. -/
theorem drainFrom_meets_quit {s : State} (h : s.kbQuit = false) (ts : Time) (behind : List Event) :
    drainFrom (.quit ts :: behind) s = { s with kbQuit := true, Q := behind } := by
  have htaken : drainFrom (.quit ts :: behind) s = drainFrom behind (recordEvent (.quit ts) s) := if_neg (by simp [h])
  rw [htaken, recordEvent_quit, drainFrom_quit rfl]

theorem pollInput_of_no_wait {s : State} (h : s.wait = none) : pollInput s = drainEvents s := by
  simp only [pollInput, h]

theorem drainEvents_of_no_quit {s : State} (hs : s.kbQuit = false) (hQ : ∀ e ∈ s.Q, isQuit e = false) :
    drainEvents s = { s.Q.foldl (fun u e => recordEvent e u) s with Q := [] } := by
  obtain ⟨hdrain, -⟩ := drainFrom_append (rest := []) hs hQ
  rw [List.append_nil] at hdrain
  exact hdrain

theorem drainEvents_of_first_quit {s : State} {before behind : List Event} {ts : Time} (hs : s.kbQuit = false)
    (hbefore : ∀ e ∈ before, isQuit e = false) (hQ : s.Q = before ++ .quit ts :: behind) :
    drainEvents s = { before.foldl (fun u e => recordEvent e u) s with kbQuit := true, Q := behind } := by
  obtain ⟨hdrain, hquit⟩ := drainFrom_append (rest := .quit ts :: behind) hs hbefore
  rw [drainEvents, hQ, hdrain, drainFrom_meets_quit hquit]

theorem drainEvents_after_quit {s : State} (h : s.kbQuit = true) : drainEvents s = s := drainFrom_quit h s.Q

/-- Settles O51: the events before the first quit are recorded by `drainFrom_append`, by induction on them; the loop then
ends at the empty queue or at the quit. -/
theorem drainRecordsInOrder : Obligations.DrainRecordsInOrder := fun _ =>
  ⟨pollInput_of_no_wait, drainEvents_of_no_quit, fun _ _ _ => drainEvents_of_first_quit, drainEvents_after_quit⟩

/-- Settles O50: the press times after a character event are read off the updated vector; the other two events write one
flag. -/
theorem recordEventUpdatesKeyboard : Obligations.RecordEventUpdatesKeyboard := fun s =>
  ⟨fun k ts => ⟨pressTime_recordEvent_char_self k ts s, fun _ h => pressTime_recordEvent_char_ne h ts s,
      recordEvent_char_frame k ts s⟩,
    fun ts => recordEvent_toggle ts s, fun ts => recordEvent_quit ts s⟩

end Sys2Proof.Machine
end

section
/-! PROOFS. Wait-for-key and the moves between a register and a timer (spec/45_keyboard_timers.md R229, R232 to R234). -/
namespace Sys2Proof.Machine
open Sys2Proof.Claims

theorem exec_ldVxK (x : RegIdx) (s : State) :
    exec (.ldVxK x) s = .next { s with wait := some { dest := x, validAfter := s.env.now } } := rfl

theorem exec_ldVxDT (x : RegIdx) (s : State) : exec (.ldVxDT x) s = .next (s.setReg x s.DT) := rfl

theorem exec_ldDTVx (x : RegIdx) (s : State) : exec (.ldDTVx x) s = .next { s with DT := s.reg x } := rfl

theorem exec_ldSTVx (x : RegIdx) (s : State) : exec (.ldSTVx x) s = .next { s with ST := s.reg x } := rfl

/-- Settles O55: the word is the encoding of LD Vx, K, which writes the wait request alone. -/
theorem waitForKeyMakesRequest : Obligations.WaitForKeyMakesRequest := fun s x =>
  ⟨decodeWord_of_eq_encode (.ldVxK x) rfl (wordXKK_eq_fmtXKK 0xF x 0x0A), exec_ldVxK x s⟩

/-- Settles O56: the load from DT answers `setReg x`, which keeps the other registers and every other field; the two stores
write their timer alone. -/
theorem timerMoves : Obligations.TimerMoves := by
  intro s x
  have hldVxDT := decodeWord_of_eq_encode (.ldVxDT x) rfl (wordXKK_eq_fmtXKK 0xF x 0x07)
  have hldDTVx := decodeWord_of_eq_encode (.ldDTVx x) rfl (wordXKK_eq_fmtXKK 0xF x 0x15)
  have hldSTVx := decodeWord_of_eq_encode (.ldSTVx x) rfl (wordXKK_eq_fmtXKK 0xF x 0x18)
  exact ⟨hldVxDT, hldDTVx, hldSTVx,
    ⟨_, exec_ldVxDT x s, reg_setReg_self s x s.DT, otherRegs_setReg x _ s, onlyRegs_setReg x _ s⟩,
    exec_ldDTVx x s, exec_ldSTVx x s⟩

end Sys2Proof.Machine
end

section
/-! PROOFS. The decoder and the encoder are inverse to each other on well-formed instructions, and the words the decoder
refuses are those of R86 (spec/30_encoding.md). -/
namespace Sys2Proof

/-! ## From the word to the instruction and back -/

theorem decode_wordBytes_append (op : Word) (rest : List Byte) {i : Instr} (h : decodeWord op = some i) :
    decode (wordBytes op ++ rest) = .ok (i, rest) := by
  simp [decode, wordBytes, h]

@[simp] theorem wordBytes_opcodeOf (first second : Byte) : wordBytes (opcodeOf first second) = [first, second] := by
  have hhigh : highByte (opcodeOf first second) = first := BitVec.extractLsb'_append_eq_left
  have hlow : lowByte (opcodeOf first second) = second := BitVec.extractLsb'_append_eq_right
  rw [wordBytes, hhigh, hlow]

/-- What the decoder accepts: two bytes whose word is an instruction, and the rest. -/
theorem decode_eq_ok {bytes rest : List Byte} {i : Instr} (h : decode bytes = .ok (i, rest)) :
    ∃ op, decodeWord op = some i ∧ bytes = wordBytes op ++ rest := by
  unfold decode at h
  split at h
  · next first second tail =>
    split at h
    · next i' hi =>
      cases h
      exact ⟨opcodeOf first second, hi, by simp⟩
    · cases h
  · cases h

/-- i is a well-formed instruction whose word is op. -/
def Instr.HasWord (i : Instr) (op : Word) : Prop := i.wellFormed = true ∧ encode i = op

theorem decodeFamily0_hasWord (op : Word) (ht : topNibble op = 0) : (decodeFamily0 op).HasWord op := by
  have hop : op = fmtNNN 0 (nnnField op) := ht ▸ word_eq_fmtNNN op
  unfold decodeFamily0
  split
  · next hcls => exact ⟨rfl, hcls.symm⟩
  · next hcls =>
    split
    · next hret => exact ⟨rfl, hret.symm⟩
    · next hret =>
      refine ⟨(sysOperandOk_iff _).2 ⟨fun e => hcls ?_, fun e => hret ?_⟩, hop.symm⟩
      · rw [hop, e]; rfl
      · rw [hop, e]; rfl

theorem decodeFamily8_hasWord {x y : RegIdx} {n : BitVec 4} {i : Instr} (h : decodeFamily8 x y n = some i) :
    i.HasWord (fmtXYN 0x8 x y n) := by
  unfold decodeFamily8 at h
  split at h <;> cases h
  all_goals
    next hn => exact ⟨rfl, congrArg (fmtXYN 0x8 x y) (BitVec.eq_of_toNat_eq hn.symm)⟩

theorem decodeFamilyE_hasWord {x : RegIdx} {kk : Byte} {i : Instr} (h : decodeFamilyE x kk = some i) :
    i.HasWord (fmtXKK 0xE x kk) := by
  unfold decodeFamilyE at h
  split_ifs at h <;> cases h <;> subst kk <;> exact ⟨rfl, rfl⟩

theorem decodeFamilyF_hasWord {x : RegIdx} {kk : Byte} {i : Instr} (h : decodeFamilyF x kk = some i) :
    i.HasWord (fmtXKK 0xF x kk) := by
  unfold decodeFamilyF at h
  split_ifs at h <;> cases h <;> subst kk <;> exact ⟨rfl, rfl⟩

/-- Families 5 and 9: the instruction of the word whose bottom nibble is 0, and no other (C1). -/
theorem hasWord_of_zero_nibble {n : BitVec 4} {i j : Instr} {op : Word} (hi : n = 0 → i.HasWord op)
    (h : (if n = 0 then some i else none) = some j) : j.HasWord op := by
  split_ifs at h with hn
  cases h
  exact hi hn

/-- Each word has one meaning: the instruction the decoder reads from it is well formed and encodes to it (R84). -/
theorem decodeWord_hasWord {op : Word} {i : Instr} (h : decodeWord op = some i) : i.HasWord op := by
  have hNNN := word_eq_fmtNNN op
  have hXKK := word_eq_fmtXKK op
  have hXYN := word_eq_fmtXYN op
  have hFamily0 := decodeFamily0_hasWord op
  unfold decodeWord at h
  generalize topNibble op = t at *
  obtain ⟨⟨t, ht⟩⟩ := t
  simp only [BitVec.toNat_ofFin] at h
  interval_cases t
  · cases h; exact hFamily0 rfl
  · cases h; exact ⟨rfl, hNNN.symm⟩
  · cases h; exact ⟨rfl, hNNN.symm⟩
  · cases h; exact ⟨rfl, hXKK.symm⟩
  · cases h; exact ⟨rfl, hXKK.symm⟩
  · exact hasWord_of_zero_nibble (fun hn => ⟨rfl, (hn ▸ hXYN).symm⟩) h
  · cases h; exact ⟨rfl, hXKK.symm⟩
  · cases h; exact ⟨rfl, hXKK.symm⟩
  · exact hXYN ▸ decodeFamily8_hasWord h
  · exact hasWord_of_zero_nibble (fun hn => ⟨rfl, (hn ▸ hXYN).symm⟩) h
  · cases h; exact ⟨rfl, hNNN.symm⟩
  · cases h; exact ⟨rfl, hNNN.symm⟩
  · cases h; exact ⟨rfl, hXKK.symm⟩
  · cases h; exact ⟨rfl, hXYN.symm⟩
  · exact hXKK ▸ decodeFamilyE_hasWord h
  · exact hXKK ▸ decodeFamilyF_hasWord h

/-! ## The illegal words (R86) -/

theorem decodeFamily8_eq_none (x y : RegIdx) (n : BitVec 4) :
    decodeFamily8 x y n = none ↔ n.toNat ∈ [0x8, 0x9, 0xA, 0xB, 0xC, 0xD, 0xF] := by
  obtain ⟨⟨n, hn⟩⟩ := n
  rw [decodeFamily8, BitVec.toNat_ofFin]
  interval_cases n <;> simp

theorem decodeFamilyE_eq_none (x : RegIdx) (kk : Byte) : decodeFamilyE x kk = none ↔ kk.toNat ∉ [0x9E, 0xA1] := by
  unfold decodeFamilyE
  split_ifs <;> simp_all [← BitVec.toNat_inj]

theorem decodeFamilyF_eq_none (x : RegIdx) (kk : Byte) :
    decodeFamilyF x kk = none ↔ kk.toNat ∉ [0x07, 0x0A, 0x15, 0x18, 0x1E, 0x29, 0x33, 0x55, 0x65] := by
  unfold decodeFamilyF
  split_ifs <;> simp_all [← BitVec.toNat_inj]

/-- Settles O2: the two bytes are put together to the word, and `decodeWord_encode` reads the instruction back. -/
theorem decodeInvertsEncode : Obligations.DecodeInvertsEncode := fun i rest hwf =>
  decode_wordBytes_append (encode i) rest (decodeWord_encode i hwf)

/-- Settles O3, by `decodeWord_hasWord` on the word of the first two bytes. -/
theorem encodeInvertsDecode : Obligations.EncodeInvertsDecode := by
  intro bytes rest i h
  obtain ⟨op, hop, hbytes⟩ := decode_eq_ok h
  obtain ⟨hwf, henc⟩ := decodeWord_hasWord hop
  exact ⟨hwf, by rw [hbytes, encodeBytes, henc]⟩

/-- Settles O4, family by family: an `↔` for each family that has illegal words, `some` in the others. -/
theorem illegalWordsAreThoseListed : Obligations.IllegalWordsAreThoseListed := by
  intro op
  have hn := nField_toNat op
  have hkk := kkField_toNat op
  have ht := topNibble_toNat op
  simp only [decodeWord, ← ht, ← hn, ← hkk]
  generalize topNibble op = t
  obtain ⟨⟨t, ht⟩⟩ := t
  simp only [BitVec.toNat_ofFin]
  interval_cases t <;>
    simp [← BitVec.toNat_inj, decodeFamily8_eq_none, decodeFamilyE_eq_none, decodeFamilyF_eq_none]

/-- Settles O1: each word of the list, evaluated by the decoder. -/
theorem specWordsDecode : Obligations.SpecWordsDecode := by
  unfold Obligations.SpecWordsDecode
  decide
end Sys2Proof
end

section
/-! PROOFS. Memory, fetch and the reset state (spec/20_memory.md R62, R63, R72; spec/10_state.md R45). -/
namespace Sys2Proof.Machine

theorem extractLsb'_high_opcodeOf (first second : Byte) : (opcodeOf first second).extractLsb' 8 8 = first :=
  BitVec.extractLsb'_append_eq_left

theorem extractLsb'_low_opcodeOf (first second : Byte) : (opcodeOf first second).extractLsb' 0 8 = second :=
  BitVec.extractLsb'_append_eq_right

/-- Settles O5: the fetched word is the two bytes put together, the lower address first. -/
theorem fetchIsBigEndian : Obligations.FetchIsBigEndian := fun _ hpc =>
  ⟨_, fetch_ok hpc, extractLsb'_high_opcodeOf _ _, extractLsb'_low_opcodeOf _ _⟩

/-- Settles O6, by the read-after-write rule `byteAt_storeByte` at the stored address and elsewhere. -/
theorem loadSeesLatestStore : Obligations.LoadSeesLatestStore := by
  intro s a b hwf ha
  refine ⟨memWf_storeByte hwf ha b, ?_, fun c hc => ?_, rfl⟩
  · rw [byteAt_storeByte hwf, if_pos rfl]
  · rw [byteAt_storeByte hwf, if_neg hc]

/-- Settles O7: the store at `pc + 1` leaves the byte at `pc`, so the fetch reads both stored halves. -/
theorem storedWordIsFetched : Obligations.StoredWordIsFetched := by
  intro s op hwf hpc
  have hwf' : (s.storeByte s.pc.toNat (highByte op)).memWf = true := memWf_storeByte hwf (by omega) _
  have hstored : fetch ((s.storeByte s.pc.toNat (highByte op)).storeByte (s.pc.toNat + 1) (lowByte op)) =
      .ok (opcodeOf (highByte op) (lowByte op)) := by
    rw [fetch_ok (by simpa using hpc)]
    simp [byteAt_storeByte hwf', byteAt_storeByte hwf]
  rw [opcodeOf_bytes] at hstored
  exact hstored

theorem reg_reset (i : RegIdx) : State.reset.reg i = 0 := Vector.getElem_replicate i.isLt

theorem pressTime_reset (k : Key) : State.reset.pressTime k = none := Vector.getElem_replicate k.isLt

theorem background_font (font : Config.Font) {a : Nat} (h : a < 80) : Memory.background font a = font[a] := dif_pos h

theorem background_above_font (font : Config.Font) {a : Nat} (h : 80 ≤ a) : Memory.background font a = 0 :=
  dif_neg (by omega)

/-- Settles O8: memory lists nothing, so every byte is `Memory.background`; the 80 bytes of the default font are compared
one by one with its table. -/
theorem resetLeavesTheListedState : Obligations.ResetLeavesTheListedState := by
  have hfont : ∀ d, d < 16 → ∀ r, r < 5 →
      State.reset.byteAt (5 * d + r) = ((Config.glyphsLow ++ Config.glyphsHigh).getD d []).getD r 0 := by decide
  exact ⟨reg_reset, rfl, rfl, rfl, hfont,
    fun p a => ⟨fun h => (byteAt_nil rfl a).trans (background_font p.font h),
      fun h => (byteAt_nil rfl a).trans (background_above_font p.font h)⟩,
    rfl, rfl, pixel_clear, pressTime_reset, rfl, rfl, rfl, rfl, rfl, rfl, rfl, rfl⟩

/-- Settles O9, clause by clause. -/
theorem resetSatisfiesInvariant : Obligations.ResetSatisfiesInvariant where
  memory := rfl
  steps := by decide
  phase := by decide
  pc := by decide
  stack := by simp [State.reset]
  quit := by simp [State.reset]
  noWait _ := rfl
  paused _ := rfl

end Sys2Proof.Machine
end

section
/-! PROOFS. CALL with its RET, and the register skips (spec/41_flow.md R131, R134, R137, R138). -/
namespace Sys2Proof.Machine
open Sys2Proof.Claims

theorem exec_seReg (x y : RegIdx) (s : State) : exec (.seReg x y) s = skipIf (s.reg x == s.reg y) s := rfl

theorem exec_sneReg (x y : RegIdx) (s : State) : exec (.sneReg x y) s = skipIf (s.reg x != s.reg y) s := rfl

theorem executeWord_of_illegal {op : Word} (h : decodeWord op = none) (s : State) :
    executeWord op s = .next { s with rs := .fault .unknownOpcode op.toNat } := by
  simp only [executeWord, h]
  rfl

/-- Families 5 and 9 are legal with a bottom nibble of 0 only (C1). -/
theorem decodeWord_registerSkip_of_ne_zero (x y : RegIdx) {n : BitVec 4} (hn : n ≠ 0) :
    decodeWord (fmtXYN 0x5 x y n) = none ∧ decodeWord (fmtXYN 0x9 x y n) = none := by
  have hn' : n ≠ 0#4 := hn
  simp [decodeWord, hn']

/-- Settles O30: the CALL leaves `pc` on top of the stack, and `exec_ret_cons` pops it. -/
theorem callThenReturnRestores : Obligations.CallThenReturnRestores := fun s _ nnn =>
  ⟨_, exec_call nnn s, exec_ret_cons⟩

/-- Settles O33: the skips by `skipIf_of_eq` and `skipIf_of_ne`, the other bottom nibbles by
`decodeWord_registerSkip_of_ne_zero`. -/
theorem registerSkips : Obligations.RegisterSkips := by
  intro s x y
  have hse := decodeWord_of_eq_encode (.seReg x y) rfl (wordXYN_eq_fmtXYN 0x5 x y 0)
  have hsne := decodeWord_of_eq_encode (.sneReg x y) rfl (wordXYN_eq_fmtXYN 0x9 x y 0)
  rw [exec_seReg, exec_sneReg]
  refine ⟨hse, hsne, fun n h0 h16 => ?_, fun h => skipIf_of_eq h s, fun h => skipIf_of_ne h s⟩
  have hn : BitVec.ofNatLT (w := 4) n h16 ≠ 0 := fun e => absurd (congrArg BitVec.toNat e) (Nat.ne_of_gt h0)
  obtain ⟨h5, h9⟩ := decodeWord_registerSkip_of_ne_zero x y hn
  rw [← wordXYN_eq_fmtXYN] at h5 h9
  exact ⟨executeWord_of_illegal h5 s, executeWord_of_illegal h9 s⟩

end Sys2Proof.Machine
end

section
/-! PROOFS. Logic, flag-setting arithmetic, shifts and the random byte (spec/42_alu.md). -/
namespace Sys2Proof.Machine
open Sys2Proof.Claims

theorem exec_orReg (x y : RegIdx) (s : State) : exec (.orReg x y) s = .next (s.setReg x (s.reg x ||| s.reg y)) := rfl

theorem exec_andReg (x y : RegIdx) (s : State) : exec (.andReg x y) s = .next (s.setReg x (s.reg x &&& s.reg y)) := rfl

theorem exec_xorReg (x y : RegIdx) (s : State) : exec (.xorReg x y) s = .next (s.setReg x (s.reg x ^^^ s.reg y)) := rfl

theorem exec_addReg (x y : RegIdx) (s : State) :
    exec (.addReg x y) s = .next ((s.setReg x (s.reg x + s.reg y)).setReg 15 (carryFlag (s.reg x) (s.reg y))) := rfl

theorem exec_subReg (x y : RegIdx) (s : State) :
    exec (.subReg x y) s = .next (subtractInto x y (s.setReg 15 (greaterFlag (s.reg x) (s.reg y)))) := rfl

theorem exec_subnReg (x y : RegIdx) (s : State) :
    exec (.subnReg x y) s = .next (subtractFrom x y (s.setReg 15 (greaterFlag (s.reg y) (s.reg x)))) := rfl

theorem exec_shr (x y : RegIdx) (s : State) :
    exec (.shr x y) s = .next (shiftRight x (s.setReg 15 (lsbFlag (s.reg x)))) := rfl

theorem exec_shl (x y : RegIdx) (s : State) :
    exec (.shl x y) s = .next (shiftLeft x (s.setReg 15 (msbFlag (s.reg x)))) := rfl

theorem exec_rnd (x : RegIdx) (kk : Byte) (s : State) :
    exec (.rnd x kk) s = .next (s.spendDraw.setReg x (s.drawByte &&& kk)) := rfl

/-- Two writes of which one is to VF leave every other register. -/
theorem otherRegsThanFlag_result_then_flag (x : RegIdx) (b f : Byte) (s : State) :
    OtherRegsThanFlag x s ((s.setReg x b).setReg 15 f) := fun _ hx h15 => by
  rw [reg_setReg_ne _ _ h15, reg_setReg_ne _ _ hx]

theorem otherRegsThanFlag_flag_then_result (x : RegIdx) (f b : Byte) (s : State) :
    OtherRegsThanFlag x s ((s.setReg 15 f).setReg x b) := fun _ hx h15 => by
  rw [reg_setReg_ne _ _ hx, reg_setReg_ne _ _ h15]

theorem sub_toNat_of_byte (a b : Byte) : (a - b).toNat = (a.toNat + 256 - b.toNat) % 256 := by
  have := b.isLt
  rw [BitVec.toNat_sub]
  congr 1
  omega

/-- A difference read after the flag has been written: an operand F reads as the flag (the spec's decision D7). -/
theorem difference_after_flag (p q : RegIdx) (f : Byte) (s : State) :
    (p ≠ 15 → q ≠ 15 → ((s.setReg 15 f).reg p - (s.setReg 15 f).reg q).toNat =
      ((s.reg p).toNat + 256 - (s.reg q).toNat) % 256) ∧
    (p = 15 → q ≠ 15 → ((s.setReg 15 f).reg p - (s.setReg 15 f).reg q).toNat =
      (f.toNat + 256 - (s.reg q).toNat) % 256) ∧
    (p ≠ 15 → q = 15 → ((s.setReg 15 f).reg p - (s.setReg 15 f).reg q).toNat =
      ((s.reg p).toNat + 256 - f.toNat) % 256) ∧
    (p = 15 → q = 15 → (s.setReg 15 f).reg p - (s.setReg 15 f).reg q = 0) := by
  refine ⟨fun hp hq => ?_, fun hp hq => ?_, fun hp hq => ?_, fun hp hq => ?_⟩
  · rw [reg_setReg_ne _ _ hp, reg_setReg_ne _ _ hq, sub_toNat_of_byte]
  · rw [hp, reg_setReg_self, reg_setReg_ne _ _ hq, sub_toNat_of_byte]
  · rw [hq, reg_setReg_self, reg_setReg_ne _ _ hp, sub_toNat_of_byte]
  · rw [hp, hq]
    exact BitVec.sub_self _

/-- A result written after the flag leaves the flag in VF unless VF is its destination. -/
theorem flag_after_result {x : RegIdx} (hx : x ≠ 15) (f b : Byte) (s : State) :
    ((s.setReg 15 f).setReg x b).reg 15 = f := by
  rw [reg_setReg_ne _ _ (Ne.symm hx), reg_setReg_self]

theorem shiftRight_one_toNat (a : Byte) : (a >>> 1).toNat = a.toNat / 2 := by
  rw [BitVec.toNat_ushiftRight, Nat.shiftRight_eq_div_pow, Nat.pow_one]

theorem shiftLeft_one_toNat (a : Byte) : (a <<< 1).toNat = a.toNat * 2 % 256 := by
  rw [BitVec.toNat_shiftLeft, Nat.shiftLeft_eq, Nat.pow_one]

/-- With VF as the operand the shift drops the one bit its flag holds. -/
theorem lsbFlag_shiftRight : ∀ a : Byte, lsbFlag a >>> 1 = 0 := by decide

theorem msbFlag_shiftLeft : ∀ a : Byte, msbFlag a <<< 1 = 0 := by decide

theorem drawByte_of_supplied {s : State} {b : Byte} {rest : List Byte} (h : s.env.random = b :: rest) :
    s.drawByte = b := by
  simp only [State.drawByte, h]

/-- Settles O35: each answers `setReg x` of the bitwise operation. -/
theorem logicIsBitwise : Obligations.LogicIsBitwise := by
  intro s x y
  have hor := decodeWord_of_eq_encode (.orReg x y) rfl (wordXYN_eq_fmtXYN 0x8 x y 0x1)
  have hand := decodeWord_of_eq_encode (.andReg x y) rfl (wordXYN_eq_fmtXYN 0x8 x y 0x2)
  have hxor := decodeWord_of_eq_encode (.xorReg x y) rfl (wordXYN_eq_fmtXYN 0x8 x y 0x3)
  refine ⟨hor, hand, hxor, ⟨_, exec_orReg x y s, otherRegs_setReg x _ s, onlyRegs_setReg x _ s, fun k => ?_⟩,
    ⟨_, exec_andReg x y s, otherRegs_setReg x _ s, onlyRegs_setReg x _ s, fun k => ?_⟩,
    ⟨_, exec_xorReg x y s, otherRegs_setReg x _ s, onlyRegs_setReg x _ s, fun k => ?_⟩⟩
  · rw [reg_setReg_self, BitVec.getLsbD_or]
  · rw [reg_setReg_self, BitVec.getLsbD_and]
  · rw [reg_setReg_self, BitVec.getLsbD_xor]

/-- Settles O36: the carry is that of the original operands (`carryFlag_eq`) and is written last, so it stands in VF for
every x. -/
theorem addSetsCarry : Obligations.AddSetsCarry := by
  intro s x y
  have hadd := decodeWord_of_eq_encode (.addReg x y) rfl (wordXYN_eq_fmtXYN 0x8 x y 0x4)
  refine ⟨hadd, _, exec_addReg x y s, rfl, otherRegsThanFlag_result_then_flag x _ _ s, fun hx => ?_, ?_⟩
  · rw [reg_setReg_ne _ _ hx, reg_setReg_self, BitVec.toNat_add]
  · rw [reg_setReg_self, carryFlag_eq]

/-- Settles O37: the difference is read from the state with the flag already in VF, so an operand F reads as the flag. -/
theorem subtractionsFlagThenDifference : Obligations.SubtractionsFlagThenDifference := by
  intro s x y
  have hsub := decodeWord_of_eq_encode (.subReg x y) rfl (wordXYN_eq_fmtXYN 0x8 x y 0x5)
  have hsubn := decodeWord_of_eq_encode (.subnReg x y) rfl (wordXYN_eq_fmtXYN 0x8 x y 0x7)
  refine ⟨hsub, hsubn, ⟨_, exec_subReg x y s, rfl, otherRegsThanFlag_flag_then_result x _ _ s, ?_⟩,
    ⟨_, exec_subnReg x y s, rfl, otherRegsThanFlag_flag_then_result x _ _ s, ?_⟩⟩
  · obtain ⟨hneither, hx15, hy15, hboth⟩ := difference_after_flag x y (greaterFlag (s.reg x) (s.reg y)) s
    rw [greaterFlag_toNat] at hx15 hy15
    refine ⟨fun hx hy => ⟨?_, ?_⟩, fun hx hy => ?_, fun hx hy => ⟨?_, ?_⟩, fun hx hy => ?_⟩
    · rw [subtractInto, flag_after_result hx, greaterFlag_toNat]
    · rw [subtractInto, reg_setReg_self, hneither hx hy]
    · subst hx; rw [subtractInto, reg_setReg_self, hx15 rfl hy]
    · rw [subtractInto, flag_after_result hx, greaterFlag_toNat]
    · rw [subtractInto, reg_setReg_self, hy15 hx hy]
    · subst hx; rw [subtractInto, reg_setReg_self, hboth rfl hy]
  · obtain ⟨hneither, hy15, hx15, hboth⟩ := difference_after_flag y x (greaterFlag (s.reg y) (s.reg x)) s
    rw [greaterFlag_toNat] at hx15 hy15
    refine ⟨fun hx hy => ⟨?_, ?_⟩, fun hx hy => ?_, fun hx hy => ⟨?_, ?_⟩, fun hx hy => ?_⟩
    · rw [subtractFrom, flag_after_result hx, greaterFlag_toNat]
    · rw [subtractFrom, reg_setReg_self, hneither hy hx]
    · subst hx; rw [subtractFrom, reg_setReg_self, hx15 hy rfl]
    · rw [subtractFrom, flag_after_result hx, greaterFlag_toNat]
    · rw [subtractFrom, reg_setReg_self, hy15 hy hx]
    · subst hx; rw [subtractFrom, reg_setReg_self, hboth hy rfl]

/-- Settles O38, likewise; with x = F the flag itself is shifted out. -/
theorem shiftsFlagThenShift : Obligations.ShiftsFlagThenShift := by
  intro s x y
  have hshr := decodeWord_of_eq_encode (.shr x y) rfl (wordXYN_eq_fmtXYN 0x8 x y 0x6)
  have hshl := decodeWord_of_eq_encode (.shl x y) rfl (wordXYN_eq_fmtXYN 0x8 x y 0xE)
  refine ⟨hshr, hshl,
    ⟨_, exec_shr x y s, rfl, otherRegsThanFlag_flag_then_result x _ _ s, fun hx => ⟨?_, ?_⟩, fun hx => ?_⟩,
    ⟨_, exec_shl x y s, rfl, otherRegsThanFlag_flag_then_result x _ _ s, fun hx => ⟨?_, ?_⟩, fun hx => ?_⟩⟩
  · rw [shiftRight, reg_setReg_self, reg_setReg_ne _ _ hx, shiftRight_one_toNat]
  · rw [shiftRight, flag_after_result hx, lsbFlag_toNat]
  · subst hx; rw [shiftRight, reg_setReg_self, reg_setReg_self, lsbFlag_shiftRight]
  · rw [shiftLeft, reg_setReg_self, reg_setReg_ne _ _ hx, shiftLeft_one_toNat]
  · rw [shiftLeft, flag_after_result hx, msbFlag_eq]
  · subst hx; rw [shiftLeft, reg_setReg_self, reg_setReg_self, msbFlag_shiftLeft]

/-- Settles O39 with d the byte drawn, supplied or free. -/
theorem randomByteIsMasked : Obligations.RandomByteIsMasked := by
  intro s x kk
  have hrnd := decodeWord_of_eq_encode (.rnd x kk) rfl (wordXKK_eq_fmtXKK 0xC x kk)
  refine ⟨hrnd, _, s.drawByte, exec_rnd x kk s, rfl, otherRegs_setReg x _ s.spendDraw, fun k => ?_, rfl,
    fun b rest => drawByte_of_supplied⟩
  rw [reg_setReg_self, BitVec.getLsbD_and]

end Sys2Proof.Machine
end

section
/-! PROOFS. Index arithmetic (spec/43_index_memory.md R182, R183). -/
namespace Sys2Proof.Machine
open Sys2Proof.Claims

theorem exec_addI (x : RegIdx) (s : State) : exec (.addI x) s = .next (s.setI (s.I + s.regWord x)) := rfl

theorem exec_ldF (x : RegIdx) (s : State) : exec (.ldF x) s = .next (s.setI (s.regWord x * 5)) := rfl

theorem regWord_toNat (s : State) (x : RegIdx) : (s.regWord x).toNat = (s.reg x).toNat := by
  have := (s.reg x).isLt
  rw [State.regWord, BitVec.toNat_setWidth]
  omega

/-- Settles O41: 16-bit addition, and a product that has room in 16 bits. -/
theorem indexArithmetic : Obligations.IndexArithmetic := by
  intro s x
  have haddI := decodeWord_of_eq_encode (.addI x) rfl (wordXKK_eq_fmtXKK 0xF x 0x1E)
  have hldF := decodeWord_of_eq_encode (.ldF x) rfl (wordXKK_eq_fmtXKK 0xF x 0x29)
  refine ⟨haddI, hldF, ⟨_, exec_addI x s, ?_, rfl⟩, ⟨_, exec_ldF x s, ?_, rfl⟩⟩
  · rw [setI_I, BitVec.toNat_add, regWord_toNat]
  · have := (s.reg x).isLt
    rw [setI_I, BitVec.toNat_mul, regWord_toNat]
    exact Nat.mod_eq_of_lt (show (s.reg x).toNat * 5 < 65536 by omega)

end Sys2Proof.Machine
end

section
/-! PROOFS. The transfers between registers and memory (spec/43_index_memory.md R184 to R186): each is a run of bounded
accesses from `I`, all in range or cut off at the first address out of range (spec/20_memory.md R64). -/
namespace Sys2Proof.Machine
open Sys2Proof.Claims

theorem exec_ldB (x : RegIdx) (s : State) : exec (.ldB x) s = storeBytes s s.I.toNat (bcdDigits (s.reg x)) := rfl

theorem exec_storeRegs (x : RegIdx) (s : State) : exec (.storeRegs x) s = storeBytes s s.I.toNat (s.regValues x) := rfl

theorem exec_loadRegs (x : RegIdx) (s : State) : exec (.loadRegs x) s = loadBytes s s.I.toNat (regRange x) := rfl

/-- The first address out of range of a run that starts at a. -/
theorem max_memSize (a : Nat) : max a 4096 = if 4096 ≤ a then a else 4096 := by
  split <;> omega

/-! ## Runs of stores -/

/-- The part of a run of stores that is in range, as reads see it afterwards. -/
theorem byteAt_storeAll_inRange {s : State} (hwf : s.memWf = true) (a : Nat) (bs : List Byte) (c : Nat) :
    (s.storeAll a (bs.take (4096 - a))).byteAt c =
      if h : a ≤ c ∧ c - a < bs.length ∧ c < 4096 then bs[c - a] else s.byteAt c := by
  by_cases ha : a ≤ 4096
  · have hlen : (bs.take (4096 - a)).length = min (4096 - a) bs.length := List.length_take
    rw [byteAt_storeAll c _ hwf (by omega)]
    by_cases hc : a ≤ c ∧ c - a < bs.length ∧ c < 4096
    · rw [dif_pos hc, dif_pos (by omega), List.getElem_take]
    · rw [dif_neg hc, dif_neg (by omega)]
  · rw [Nat.sub_eq_zero_of_le (by omega), dif_neg (by omega)]
    rfl

theorem memWf_storeAll_inRange {s : State} (hwf : s.memWf = true) (a : Nat) (bs : List Byte) :
    (s.storeAll a (bs.take (4096 - a))).memWf = true := by
  by_cases ha : a ≤ 4096
  · exact memWf_storeAll _ hwf (by rw [List.length_take]; omega)
  · rw [Nat.sub_eq_zero_of_le (by omega)]
    exact hwf

/-- What a run of stores from a answers: the bytes in range are stored, and nothing but memory changes, MEM_BOUNDS being
latched exactly when the run leaves memory. -/
theorem storeBytes_answers {s : State} (hwf : s.memWf = true) (a : Nat) {bs : List Byte} (hbs : bs ≠ []) :
    ∃ t, storeBytes s a bs = .next t ∧ t.memWf = true ∧
      (∀ c, t.byteAt c = if h : a ≤ c ∧ c - a < bs.length ∧ c < 4096 then bs[c - a] else s.byteAt c) ∧
      (a + bs.length ≤ 4096 → t = { s with mem := t.mem }) ∧
      (4096 < a + bs.length → t = { s with mem := t.mem, rs := .fault .memBounds (max a 4096) }) := by
  have hwf' := memWf_storeAll_inRange hwf a bs
  have hreads := byteAt_storeAll_inRange hwf a bs
  by_cases hin : a + bs.length ≤ 4096
  · rw [List.take_of_length_le (by omega : bs.length ≤ 4096 - a)] at hwf' hreads
    exact ⟨_, storeBytes_ok bs s a hin, hwf', hreads, fun _ => storeAll_frame bs s a, fun h => absurd hin (by omega)⟩
  · refine ⟨_, storeBytes_fault bs s a hbs (by omega), hwf', hreads, fun h => absurd h hin, fun _ => ?_⟩
    exact congrArg (·.latchFault .memBounds (max a 4096)) (storeAll_frame _ s a)

/-- The same, read at the addresses of the run. -/
theorem storeBytes_reads {s : State} (hwf : s.memWf = true) {bs : List Byte} {n : Nat} (hlen : bs.length = n + 1) :
    ∃ t, storeBytes s s.I.toNat bs = .next t ∧
      (∀ k, (h : k < bs.length) → s.dataAddr k < 4096 → t.byteAt (s.dataAddr k) = bs[k]) ∧
      (∀ c, (c < s.dataAddr 0 ∨ s.dataAddr n < c ∨ 4096 ≤ c) → t.byteAt c = s.byteAt c) ∧
      (s.dataAddr n < 4096 → t = { s with mem := t.mem }) ∧
      (4096 ≤ s.dataAddr n →
        t = { s with mem := t.mem, rs := .fault .memBounds (if 4096 ≤ s.I.toNat then s.I.toNat else 4096) }) := by
  obtain ⟨t, ht, -, hreads, hin, hout⟩ := storeBytes_answers hwf s.I.toNat (List.ne_nil_of_length_eq_add_one hlen)
  rw [max_memSize] at hout
  simp only [State.dataAddr]
  refine ⟨t, ht, fun k hk hk' => ?_, fun c hc => ?_, fun h => hin (by omega), fun h => hout (by omega)⟩
  · rw [hreads, dif_pos (by omega)]
    simp
  · rw [hreads, dif_neg (by omega)]

/-! ## Runs of loads -/

/-- The first m registers of the range of Fx65, as reads see them after their loads. -/
theorem reg_loadAll_take (s : State) (a m : Nat) (x k : RegIdx) :
    (loadAll s a ((regRange x).take m)).reg k =
      if k ≤ x ∧ k.val < m then s.byteAt (a + k.val) else s.reg k := by
  have hget : ∀ (j : Nat) (h : j < ((regRange x).take m).length), ((regRange x).take m)[j].val = j := fun j h => by
    rw [List.getElem_take, regRange_getElem]
  by_cases hk : k ≤ x ∧ k.val < m
  · have hlt : k.val < ((regRange x).take m).length := by
      have : k.val ≤ x.val := hk.1
      rw [List.length_take, regRange_length]
      omega
    have hreg := loadAll_reg _ s a ((regRange_nodup x).sublist (List.take_sublist m _)) k.val hlt
    rw [Fin.ext (hget k.val hlt)] at hreg
    rw [if_pos hk, hreg]
  · have hnot : k ∉ (regRange x).take m := fun hmem => by
      obtain ⟨j, hj, rfl⟩ := List.mem_iff_getElem.1 hmem
      have hx := (mem_regRange x _).1 (List.mem_of_mem_take hmem)
      rw [hget j hj] at hk
      rw [List.length_take] at hj
      exact hk ⟨hx, by omega⟩
    rw [if_neg hk, loadAll_reg_other _ _ _ _ hnot]

/-- What the run of loads of Fx65 answers: the registers whose byte is in range are loaded, and nothing but registers
changes, MEM_BOUNDS being latched exactly when the run leaves memory. -/
theorem loadBytes_answers (s : State) (x : RegIdx) :
    ∃ t, loadBytes s s.I.toNat (regRange x) = .next t ∧
      (∀ k : RegIdx, t.reg k = if k ≤ x ∧ s.dataAddr k.val < 4096 then s.byteAt (s.dataAddr k.val) else s.reg k) ∧
      (s.dataAddr x.val < 4096 → OnlyRegs s t) ∧
      (4096 ≤ s.dataAddr x.val →
        t = { s with V := t.V, rs := .fault .memBounds (if 4096 ≤ s.I.toNat then s.I.toNat else 4096) }) := by
  have hreads : ∀ k : RegIdx, (loadAll s s.I.toNat ((regRange x).take (4096 - s.I.toNat))).reg k =
      if k ≤ x ∧ s.dataAddr k.val < 4096 then s.byteAt (s.dataAddr k.val) else s.reg k := fun k => by
    have hrange : k.val < 4096 - s.I.toNat ↔ s.dataAddr k.val < 4096 := by rw [State.dataAddr]; omega
    exact (reg_loadAll_take s _ _ x k).trans (if_congr (and_congr_right' hrange) rfl rfl)
  have hlen := regRange_length x
  by_cases hin : s.dataAddr x.val < 4096
  · have hin' : s.I.toNat + (regRange x).length ≤ 4096 := hlen ▸ hin
    rw [List.take_of_length_le (by omega)] at hreads
    exact ⟨_, loadBytes_ok _ s _ hin', hreads, fun _ => loadAll_frame _ s _, fun h => absurd hin (by omega)⟩
  · have hout : 4096 < s.I.toNat + (regRange x).length := by
      rw [State.dataAddr] at hin
      omega
    rw [← max_memSize]
    refine ⟨_, loadBytes_fault _ s _ (regRange_ne_nil x) hout, hreads, fun h => absurd h hin, fun _ => ?_⟩
    exact congrArg (·.latchFault .memBounds (max s.I.toNat 4096)) (loadAll_frame _ s _)

/-! ## The three instructions -/

theorem bcdDigits_getElem_toNat (b : Byte) {k : Nat} (h : k < (bcdDigits b).length) :
    ((bcdDigits b)[k]).toNat = digit b k := by
  have := b.isLt
  have hk : k < 3 := h
  interval_cases k
  · show (BitVec.ofNat 8 (b.toNat / 100)).toNat = b.toNat / 100
    rw [BitVec.toNat_ofNat]; omega
  · show (BitVec.ofNat 8 (b.toNat / 10 % 10)).toNat = b.toNat / 10 % 10
    rw [BitVec.toNat_ofNat]; omega
  · show (BitVec.ofNat 8 (b.toNat % 10)).toNat = b.toNat % 10
    rw [BitVec.toNat_ofNat]; omega

/-- Settles O42: the run of stores is of the three digits. -/
theorem bcdStoresDigits : Obligations.BcdStoresDigits := by
  intro s x hwf
  obtain ⟨t, ht, hstored, hother, hin, hout⟩ := storeBytes_reads hwf (show (bcdDigits (s.reg x)).length = 2 + 1 from rfl)
  refine ⟨decodeWord_of_eq_encode (.ldB x) rfl (wordXKK_eq_fmtXKK 0xF x 0x33), t, (exec_ldB x s).trans ht,
    fun k hk hk' => ?_, hother, hin, hout⟩
  exact (congrArg BitVec.toNat (hstored k hk hk')).trans (bcdDigits_getElem_toNat _ hk)

/-- Settles O43: the run of stores is of the registers V0 to Vx. -/
theorem registerRangeIsStored : Obligations.RegisterRangeIsStored := by
  intro s x hwf
  obtain ⟨t, ht, hstored, hother, hin, hout⟩ := storeBytes_reads hwf (regValues_length s x)
  refine ⟨decodeWord_of_eq_encode (.storeRegs x) rfl (wordXKK_eq_fmtXKK 0xF x 0x55), t, (exec_storeRegs x s).trans ht,
    fun k hk hk' => ?_, hother, hin, hout⟩
  have hlt : k.val < (s.regValues x).length := by
    rw [regValues_length]
    exact Nat.lt_succ_of_le hk
  rw [hstored k.val hlt hk', regValues_getElem]

/-- Settles O44, by the two branches of the register rule of `loadBytes_answers`. -/
theorem registerRangeIsLoaded : Obligations.RegisterRangeIsLoaded := by
  intro s x
  obtain ⟨t, ht, hreads, hin, hout⟩ := loadBytes_answers s x
  refine ⟨decodeWord_of_eq_encode (.loadRegs x) rfl (wordXKK_eq_fmtXKK 0xF x 0x65), t, (exec_loadRegs x s).trans ht,
    fun k hk hk' => ?_, fun k hk => ?_, hin, hout⟩
  · rw [hreads, if_pos ⟨hk, hk'⟩]
  · rw [hreads, if_neg]
    rintro ⟨hkx, hk'⟩
    exact hk.elim (not_lt_of_ge hkx) (Nat.not_le_of_lt hk')

end Sys2Proof.Machine
end

section
/-! PROOFS. DRW (spec/44_display.md R205 to R210): the pixels a draw toggles, its flag, its fault, and a draw repeated. -/
namespace Sys2Proof.Machine
open Sys2Proof.Claims

/-- A computation answers one state at most. -/
theorem eq_of_next {r : Result} {t u : State} (ht : r = .next t) (hu : r = .next u) : t = u :=
  Host.Outcome.next.inj (ht.symm.trans hu)

/-- The covered pixels as the blitter's own: those under the n bytes read from `I`. -/
theorem drawCovers_eq_spriteCovers (s : State) (x y : RegIdx) (n : BitVec 4) (px py : Nat) :
    drawCovers s x y n px py =
      spriteCovers (s.startColumn x) (s.startRow y) ((List.range n.toNat).map fun k => s.byteAt (s.I.toNat + k)) px py := by
  rw [Bool.eq_iff_iff]
  simp only [drawCovers, spriteCovers, spriteBit, Bool.and_eq_true, decide_eq_true_eq]
  simp only [State.startColumn, State.startRow, dispW_eq, dispH_eq, List.length_map, List.length_range]
  refine and_congr_right fun ⟨_, hrow⟩ => ?_
  have hlt : py - (s.reg y).toNat % 32 < ((List.range n.toNat).map fun k => s.byteAt (s.I.toNat + k)).length := by
    rw [List.length_map, List.length_range]
    omega
  rw [List.getD_eq_getElem _ _ hlt, List.getElem_map, List.getElem_range]

theorem exec_drw_of_inRange {s : State} {n : BitVec 4} (h : spriteInRange s n) (x y : RegIdx) :
    exec (.drw x y n) s = .next (drawRows (s.startColumn x) (s.startRow y)
      ((List.range n.toNat).map fun k => s.byteAt (s.I.toNat + k)) s) := by
  rcases execDrw_cases x y n s with ⟨-, hdraw⟩ | ⟨hout, -⟩
  · exact hdraw
  · exact absurd h hout

theorem collisionFlag_true : collisionFlag true = 1 := rfl

theorem collisionFlag_false : collisionFlag false = 0 := rfl

/-- What a draw with all its sprite bytes in memory answers. -/
theorem exec_drw_answers {s : State} {n : BitVec 4} (h : spriteInRange s n) (x y : RegIdx) :
    ∃ t, exec (.drw x y n) s = .next t ∧ t = { s with V := t.V, Pix := t.Pix } ∧ OtherRegs 15 s t ∧
      (∀ px py, px < 64 → py < 32 → t.Pix.pixel px py = (s.Pix.pixel px py ^^ drawCovers s x y n px py)) ∧
      ((∃ px py, px < 64 ∧ py < 32 ∧ drawCovers s x y n px py = true ∧ s.Pix.pixel px py = true) → t.reg 15 = 1) ∧
      ((¬ ∃ px py, px < 64 ∧ py < 32 ∧ drawCovers s x y n px py = true ∧ s.Pix.pixel px py = true) → t.reg 15 = 0) := by
  have hhit := blit_hit s.Pix (s.startColumn x) (s.startRow y)
    ((List.range n.toNat).map fun k => s.byteAt (s.I.toNat + k))
  simp only [← drawCovers_eq_spriteCovers, and_assoc] at hhit
  refine ⟨_, exec_drw_of_inRange h x y, rfl, fun j hj => ?_, fun px py hx hy => ?_, fun hc => ?_, fun hc => ?_⟩
  · rw [drawRows_reg, if_neg hj]
  · rw [drawRows_Pix, blit_pixel _ _ _ _ ⟨hx, hy⟩, drawCovers_eq_spriteCovers]
  · rw [drawRows_reg, if_pos rfl, hhit.2 hc, collisionFlag_true]
  · rw [drawRows_reg, if_pos rfl, Bool.eq_false_iff.2 fun e => hc (hhit.1 e), collisionFlag_false]

/-- The covered pixels depend on the operands and the n sprite bytes only. -/
theorem drawCovers_congr {s u : State} {x y : RegIdx} {n : BitVec 4} (hI : u.I = s.I) (hx : u.reg x = s.reg x)
    (hy : u.reg y = s.reg y) (hbytes : ∀ r, r < n.toNat → u.byteAt (s.I.toNat + r) = s.byteAt (s.I.toNat + r))
    (px py : Nat) : drawCovers u x y n px py = drawCovers s x y n px py := by
  have hrows : ((List.range n.toNat).map fun k => u.byteAt (s.I.toNat + k)) =
      (List.range n.toNat).map fun k => s.byteAt (s.I.toNat + k) :=
    List.map_congr_left fun r hr => hbytes r (List.mem_range.1 hr)
  rw [drawCovers_eq_spriteCovers, drawCovers_eq_spriteCovers, State.startColumn, State.startRow, hI, hx, hy, hrows]
  rfl

/-- Settles O47, by the pixel and collision rules of the blit. -/
theorem drawTogglesCoveredPixels : Obligations.DrawTogglesCoveredPixels := fun _ x y n h =>
  ⟨decodeWord_of_eq_encode (.drw x y n) rfl (wordXYN_eq_fmtXYN 0xD x y n), exec_drw_answers h x y⟩

/-- Settles O48: the bytes are read before anything is written. -/
theorem drawOutOfRangeLatches : Obligations.DrawOutOfRangeLatches := by
  intro s x y n h
  rw [← max_memSize]
  rcases execDrw_cases x y n s with ⟨hin, -⟩ | ⟨-, hfault⟩
  · exact absurd hin h
  · exact hfault

/-- Settles O49: the second draw covers the same pixels, and toggling a pixel twice restores it; a covered pixel is on
before the second draw exactly when it was off before the first. -/
theorem doubleDrawRestores : Obligations.DoubleDrawRestores := by
  intro s t u x y n hin ht hPix hI hx hy hbytes
  obtain ⟨t', ht', -, -, hfirst, -, -⟩ := exec_drw_answers hin x y
  obtain rfl : t = t' := eq_of_next ht ht'
  have hin' : spriteInRange u n := by rwa [spriteInRange, hI]
  obtain ⟨w, hw, -, -, hsecond, hon, hoff⟩ := exec_drw_answers hin' x y
  have hcovers := drawCovers_congr hI hx hy hbytes
  have hhit : (∃ px py, px < 64 ∧ py < 32 ∧ drawCovers u x y n px py = true ∧ u.Pix.pixel px py = true) ↔
      ∃ px py, px < 64 ∧ py < 32 ∧ drawCovers s x y n px py = true ∧ s.Pix.pixel px py = false := by
    refine exists_congr fun px => exists_congr fun py => and_congr_right fun h64 => and_congr_right fun h32 => ?_
    rw [hcovers, hPix, hfirst px py h64 h32]
    refine and_congr_right fun hc => ?_
    rw [hc, Bool.xor_true, Bool.not_eq_true']
  rw [hhit] at hon hoff
  refine ⟨w, hw, pixel_ext fun px py hp => ?_, hon, hoff⟩
  rw [hsecond px py hp.1 hp.2, hcovers, hPix, hfirst px py hp.1 hp.2, Bool.xor_assoc, Bool.xor_self, Bool.xor_false]

end Sys2Proof.Machine
end

section
/-! PROOFS. The held test, ResolveWait and the key skips (spec/45_keyboard_timers.md R224, R225, R227, R228). -/
namespace Sys2Proof.Machine
open Sys2Proof.Claims

theorem isHeld_of_never_pressed {s : State} {k : Key} (h : s.pressTime k = none) : s.isHeld k = false := by
  simp only [State.isHeld, h]

theorem isHeld_iff {s : State} {k : Key} {ts : Time} (h : s.pressTime k = some ts) :
    s.isHeld k = true ↔ s.env.now < ts + s.params.heldWindow := by
  simp only [State.isHeld, h, decide_eq_true_eq]

theorem pollInput_of_wait {s : State} {w : WaitRequest} (h : s.wait = some w) : pollInput s = resolveWait w s := by
  simp only [pollInput, h]

/-- An early event is a character event from before the request. -/
theorem early_iff (w : WaitRequest) (e : Event) : early w e = true ↔ ∃ k ts, e = .char k ts ∧ ¬ w.validAfter ≤ ts := by
  cases e <;> simp [early]

/-- Early events at the head of the queue are dropped without a trace (the spec's decision D13). -/
theorem resolveFrom_append_early (w : WaitRequest) {s : State} (hs : s.kbQuit = false) (rest : List Event) :
    ∀ {before : List Event}, (∀ e ∈ before, early w e = true) →
      resolveFrom w (before ++ rest) s = resolveFrom w rest s
  | [], _ => rfl
  | e :: before, h => by
    obtain ⟨he, htail⟩ := List.forall_mem_cons.1 h
    obtain ⟨k, ts, rfl, hts⟩ := (early_iff w e).1 he
    exact (resolveFrom_discards w hs k hts _).trans (resolveFrom_append_early w hs rest htail)

/-- A register that holds a key number names that key (R227). -/
theorem withKey_of_key {s : State} {x : RegIdx} {k : Key} (h : (s.reg x).toNat = k.val) (f : Key → Result) :
    withKey x s f = f k := by
  have hlt : (s.reg x).toNat < 16 := h ▸ k.isLt
  rw [withKey_ok f hlt]
  exact congrArg f (Fin.ext h)

theorem exec_skp_of_key {s : State} {x : RegIdx} {k : Key} (h : (s.reg x).toNat = k.val) :
    exec (.skp x) s = skipIf (s.isHeld k) s := withKey_of_key h _

theorem exec_sknp_of_key {s : State} {x : RegIdx} {k : Key} (h : (s.reg x).toNat = k.val) :
    exec (.sknp x) s = skipIf (!s.isHeld k) s := withKey_of_key h _

/-- Settles O52: a key never pressed, and one with a last press. -/
theorem heldWithinWindow : Obligations.HeldWithinWindow := fun _ _ => ⟨isHeld_of_never_pressed, fun _ => isHeld_iff⟩

/-- Settles O53: the early events are dropped by `resolveFrom_append_early`, by induction on them; the event after them, or
the end of the queue, decides. -/
theorem waitResolvesOnQualifyingKey : Obligations.WaitResolvesOnQualifyingKey := by
  intro s w
  refine ⟨pollInput_of_wait, fun hquit => resolveFrom_after_quit w hquit s.Q, fun before behind hs hbefore => ?_⟩
  have hskip : ∀ rest, s.Q = before ++ rest → resolveWait w s = resolveFrom w rest s := fun rest hQ => by
    rw [resolveWait, hQ, resolveFrom_append_early w hs rest hbefore]
  refine ⟨fun hQ => ?_, fun k ts hts hQ => ?_, fun ts hQ => ?_, fun ts hQ => ?_⟩
  · exact hskip [] (by rw [hQ, List.append_nil])
  · rw [hskip _ hQ, resolveFrom_accepts w hs k hts]
    refine ⟨_, rfl, ?_, otherRegs_setReg w.dest _ _, rfl⟩
    rw [resolveWith, setWait_reg, reg_setReg_self, BitVec.toNat_ofNat]
    exact Nat.mod_eq_of_lt (by omega)
  · rw [hskip _ hQ, resolveFrom_meets_toggle w hs, recordEvent_toggle]
  · rw [hskip _ hQ, resolveFrom_meets_quit w hs, recordEvent_quit]

/-- Settles O54: a key number up to 15 is a key, whose held test the skips take; above 15 `withKey` raises KEY_INDEX. -/
theorem keySkips : Obligations.KeySkips := by
  intro s x
  have hskp := decodeWord_of_eq_encode (.skp x) rfl (wordXKK_eq_fmtXKK 0xE x 0x9E)
  have hsknp := decodeWord_of_eq_encode (.sknp x) rfl (wordXKK_eq_fmtXKK 0xE x 0xA1)
  refine ⟨hskp, hsknp, fun k hk => ?_, fun h15 => ?_⟩
  · rw [exec_skp_of_key hk, exec_sknp_of_key hk]
    refine ⟨fun hheld => ?_, fun hheld => ?_⟩
    · rw [hheld]; exact ⟨skipIf_true s, skipIf_false s⟩
    · rw [hheld]; exact ⟨skipIf_false s, skipIf_true s⟩
  · exact ⟨withKey_fault _ (Nat.not_lt.2 h15), withKey_fault _ (Nat.not_lt.2 h15)⟩

end Sys2Proof.Machine
end

section
/-! PROOFS. What each instruction can do, said once for all 35 (spec/10_state.md R23, R46), and what it therefore leaves
alone. -/
namespace Sys2Proof.Machine
open Sys2Proof.Claims

/-- What an instruction run in s may have done where it answers t: which pieces of state it wrote, how far `pc` and the stack
can have moved, and which fault it may have latched. -/
def Effect (s t : State) : Instr → Prop
  | .sys _ => t = s
  | .cls => ∃ d, t = s.setPix d
  | .jp _ | .jpV0 _ => ∃ w, w.toNat ≤ pcLimit ∧ t = s.setPc w
  | .call _ => ∃ w, w.toNat ≤ pcLimit ∧ t = (s.push s.pc).setPc w
  | .ret => (∃ w rest, s.stack = w :: rest ∧ t = (s.setStack rest).setPc w) ∨ t = s.latchFault .stackEmpty 0
  | .seImm _ _ | .sneImm _ _ | .seReg _ _ | .sneReg _ _ => t = s.setPc (s.pc + 2) ∨ t = s
  | .skp x | .sknp x => t = s.setPc (s.pc + 2) ∨ t = s ∨ t = s.latchFault .keyIndex (s.reg x).toNat
  | .ldImm x _ | .addImm x _ | .ldReg x _ | .orReg x _ | .andReg x _ | .xorReg x _ | .ldVxDT x => ∃ b, t = s.setReg x b
  | .addReg x _ => ∃ b f, t = (s.setReg x b).setReg 15 f
  | .subReg x _ | .shr x _ | .subnReg x _ | .shl x _ => ∃ f b, t = (s.setReg 15 f).setReg x b
  | .rnd x _ => ∃ b, t = s.spendDraw.setReg x b
  | .ldI _ | .addI _ | .ldF _ => ∃ w, t = s.setI w
  | .ldVxK _ => ∃ w, t = s.setWait w
  | .ldDTVx _ => ∃ b, t = s.setDT b
  | .ldSTVx _ => ∃ b, t = s.setST b
  | .drw _ _ _ => (∃ d f, t = (s.setPix d).setReg 15 f) ∨ ∃ a, 4096 ≤ a ∧ t = s.latchFault .memBounds a
  | .ldB _ | .storeRegs _ => ∃ m, t = { s with mem := m } ∨ ∃ a, 4096 ≤ a ∧ t = { s with mem := m, rs := .fault .memBounds a }
  | .loadRegs x => (∀ k, x < k → t.reg k = s.reg k) ∧
      ∃ V, t = { s with V := V } ∨ ∃ a, 4096 ≤ a ∧ t = { s with V := V, rs := .fault .memBounds a }

theorem zextAddr_le_pcLimit (nnn : BitVec 12) : (zextAddr nnn).toNat ≤ pcLimit := by
  have := nnn.isLt
  rw [zextAddr_toNat, pcLimit]
  omega

theorem zextAddr_add_le_pcLimit (nnn : BitVec 12) (b : Byte) : (zextAddr nnn + b.setWidth 16).toNat ≤ pcLimit := by
  have := nnn.isLt
  have := b.isLt
  rw [zextAddr_add_toNat, pcLimit]
  omega

theorem skipIf_effect {c : Bool} {s t : State} (h : skipIf c s = .next t) : t = s.setPc (s.pc + 2) ∨ t = s := by
  rcases skipIf_cases c s with ⟨-, hskip⟩ | ⟨-, hskip⟩
  · exact Or.inl (eq_of_next h hskip)
  · exact Or.inr (eq_of_next h hskip)

theorem execDrw_effect {x y : RegIdx} {n : BitVec 4} {s t : State} (h : exec (.drw x y n) s = .next t) :
    Effect s t (.drw x y n) := by
  rcases execDrw_cases x y n s with ⟨-, hdraw⟩ | ⟨-, hfault⟩
  · exact Or.inl ⟨_, _, eq_of_next h hdraw⟩
  · exact Or.inr ⟨_, Nat.le_max_right _ _, eq_of_next h hfault⟩

theorem execRet_effect {s t : State} (h : exec .ret s = .next t) : Effect s t .ret := by
  rcases execRet_cases s with ⟨w, rest, hstack, hret⟩ | ⟨-, hret⟩
  · exact Or.inl ⟨w, rest, hstack, eq_of_next h hret⟩
  · exact Or.inr (eq_of_next h hret)

theorem storeBytes_effect {bs : List Byte} {a : Nat} {s t : State} (h : storeBytes s a bs = .next t) :
    ∃ m, t = { s with mem := m } ∨ ∃ e, 4096 ≤ e ∧ t = { s with mem := m, rs := .fault .memBounds e } := by
  obtain ⟨m, hstore | ⟨e, he, hstore⟩⟩ := storeBytes_cases bs s a
  · exact ⟨m, Or.inl (eq_of_next h hstore)⟩
  · exact ⟨m, Or.inr ⟨e, he, eq_of_next h hstore⟩⟩

theorem execLoadRegs_effect {x : RegIdx} {s t : State} (h : exec (.loadRegs x) s = .next t) :
    Effect s t (.loadRegs x) := by
  obtain ⟨u, hu, hregs, -⟩ := loadBytes_answers s x
  obtain rfl : t = u := eq_of_next h hu
  refine ⟨fun k hk => by rw [hregs, if_neg fun hin => not_le_of_gt hk hin.1], ?_⟩
  obtain ⟨V, hload | ⟨e, he, hload⟩⟩ := loadBytes_cases (regRange x) s s.I.toNat
  · exact ⟨V, Or.inl (eq_of_next hu hload)⟩
  · exact ⟨V, Or.inr ⟨e, he, eq_of_next hu hload⟩⟩

/-- Every instruction does what `Effect` lists for it. -/
theorem exec_effect {i : Instr} {s t : State} (h : exec i s = .next t) : Effect s t i := by
  cases i with
  | sys => exact (Host.Outcome.next.inj h).symm
  | cls | ldImm | addImm | ldReg | orReg | andReg | xorReg | ldVxDT | rnd => cases h; exact ⟨_, rfl⟩
  | ldI | addI | ldF | ldVxK | ldDTVx | ldSTVx => cases h; exact ⟨_, rfl⟩
  | addReg | subReg | shr | subnReg | shl => cases h; exact ⟨_, _, rfl⟩
  | jp nnn => cases h; exact ⟨_, zextAddr_le_pcLimit nnn, rfl⟩
  | jpV0 nnn => cases h; exact ⟨_, zextAddr_add_le_pcLimit nnn _, rfl⟩
  | call nnn => cases h; exact ⟨_, zextAddr_le_pcLimit nnn, rfl⟩
  | ret => exact execRet_effect h
  | seImm | sneImm | seReg | sneReg => exact skipIf_effect h
  | skp x => exact (execSkp_cases x s).imp (eq_of_next h) (Or.imp (eq_of_next h) (eq_of_next h))
  | sknp x => exact (execSknp_cases x s).imp (eq_of_next h) (Or.imp (eq_of_next h) (eq_of_next h))
  | drw => exact execDrw_effect h
  | ldB | storeRegs => exact storeBytes_effect h
  | loadRegs => exact execLoadRegs_effect h

/-- An instruction either latches no fault, and then writes none of the keyboard's state, the queue, the paused mark, the
phase, the mark of a load, the parameters and the output, or it latches one having written registers and memory at most
(R46, R261). -/
theorem exec_frame_cases {i : Instr} {s t : State} (h : exec i s = .next t) :
    (t = { s with V := t.V, I := t.I, pc := t.pc, stack := t.stack, mem := t.mem, DT := t.DT, ST := t.ST, Pix := t.Pix,
                  wait := t.wait, env := t.env }) ∨
      ∃ c n, t = { s with V := t.V, mem := t.mem, rs := .fault c n } := by
  have heffect := exec_effect h
  cases i with
  | sys => obtain rfl := heffect; exact Or.inl rfl
  | cls | ldImm | addImm | ldReg | orReg | andReg | xorReg | ldVxDT | rnd => obtain ⟨_, rfl⟩ := heffect; exact Or.inl rfl
  | ldI | addI | ldF | ldVxK | ldDTVx | ldSTVx => obtain ⟨_, rfl⟩ := heffect; exact Or.inl rfl
  | addReg | subReg | shr | subnReg | shl => obtain ⟨_, _, rfl⟩ := heffect; exact Or.inl rfl
  | jp | jpV0 | call => obtain ⟨_, -, rfl⟩ := heffect; exact Or.inl rfl
  | seImm | sneImm | seReg | sneReg => obtain rfl | rfl := heffect <;> exact Or.inl rfl
  | ret =>
    obtain ⟨_, _, -, rfl⟩ | rfl := heffect
    · exact Or.inl rfl
    · exact Or.inr ⟨_, _, rfl⟩
  | skp | sknp =>
    obtain rfl | rfl | rfl := heffect
    · exact Or.inl rfl
    · exact Or.inl rfl
    · exact Or.inr ⟨_, _, rfl⟩
  | drw =>
    obtain ⟨_, _, rfl⟩ | ⟨_, -, rfl⟩ := heffect
    · exact Or.inl rfl
    · exact Or.inr ⟨_, _, rfl⟩
  | ldB | storeRegs =>
    obtain ⟨_, rfl | ⟨_, -, rfl⟩⟩ := heffect
    · exact Or.inl rfl
    · exact Or.inr ⟨_, _, rfl⟩
  | loadRegs =>
    obtain ⟨-, _, rfl | ⟨_, -, rfl⟩⟩ := heffect
    · exact Or.inl rfl
    · exact Or.inr ⟨_, _, rfl⟩

/-- What no instruction writes, whether it faults or not. -/
theorem exec_frame {i : Instr} {s t : State} (h : exec i s = .next t) :
    t = { s with V := t.V, I := t.I, pc := t.pc, stack := t.stack, mem := t.mem, DT := t.DT, ST := t.ST, Pix := t.Pix,
                 wait := t.wait, rs := t.rs, env := t.env } := by
  rcases exec_frame_cases h with hframe | ⟨c, n, hframe⟩
  · rw [hframe]
  · rw [hframe]

/-- Settles O57: the registers a listed instruction writes are read off `Effect`; the others write none. -/
theorem registersWrittenAsListed : Obligations.RegistersWrittenAsListed := by
  intro i s t j h hj
  have heffect := exec_effect h
  cases i with
  | sys => obtain rfl := heffect; rfl
  | cls | ldI | addI | ldF | ldVxK | ldDTVx | ldSTVx => obtain ⟨_, rfl⟩ := heffect; rfl
  | jp | jpV0 | call => obtain ⟨_, -, rfl⟩ := heffect; rfl
  | ret => obtain ⟨_, _, -, rfl⟩ | rfl := heffect <;> rfl
  | seImm | sneImm | seReg | sneReg => obtain rfl | rfl := heffect <;> rfl
  | skp | sknp => obtain rfl | rfl | rfl := heffect <;> rfl
  | ldB | storeRegs => obtain ⟨_, rfl | ⟨_, -, rfl⟩⟩ := heffect <;> rfl
  | ldImm | addImm | ldReg | orReg | andReg | xorReg | ldVxDT | rnd =>
    obtain ⟨_, rfl⟩ := heffect
    exact reg_setReg_ne _ _ (beq_eq_false_iff_ne.1 hj)
  | addReg | subReg | shr | subnReg | shl =>
    obtain ⟨_, _, rfl⟩ := heffect
    simp only [mayWriteReg, Bool.or_eq_false_iff, beq_eq_false_iff_ne] at hj
    simp only [reg_setReg, hj, if_false]
  | drw =>
    have hne : j ≠ 15 := beq_eq_false_iff_ne.1 hj
    obtain ⟨_, _, rfl⟩ | ⟨_, -, rfl⟩ := heffect
    · exact reg_setReg_ne _ _ hne
    · rfl
  | loadRegs => exact heffect.1 j (lt_of_not_ge (of_decide_eq_false hj))

/-- What an instruction leaves alone because it is not among those listed for it (R46), and the faults it may raise. -/
def Unlisted (s t : State) (i : Instr) : Prop :=
  (match i with | .cls | .drw _ _ _ => True | _ => t.Pix = s.Pix) ∧
  (match i with | .ldI _ | .addI _ | .ldF _ => True | _ => t.I = s.I) ∧
  (match i with | .ldDTVx _ => True | _ => t.DT = s.DT) ∧
  (match i with | .ldSTVx _ => True | _ => t.ST = s.ST) ∧
  (match i with | .call _ | .ret => True | _ => t.stack = s.stack) ∧
  (match i with | .ldVxK _ => True | _ => t.wait = s.wait) ∧
  (match i with | .rnd _ _ => True | _ => t.env = s.env) ∧
  (match i with | .ldB _ | .storeRegs _ => True | _ => t.mem = s.mem) ∧
  (match i with
    | .ret => t.rs = s.rs ∨ t.rs = .fault .stackEmpty 0
    | .skp x | .sknp x => t.rs = s.rs ∨ t.rs = .fault .keyIndex (s.reg x).toNat
    | .drw _ _ _ | .ldB _ | .storeRegs _ | .loadRegs _ => t.rs = s.rs ∨ ∃ a, 4096 ≤ a ∧ t.rs = .fault .memBounds a
    | _ => t.rs = s.rs)

theorem exec_unlisted {i : Instr} {s t : State} (h : exec i s = .next t) : Unlisted s t i := by
  have heffect := exec_effect h
  cases i with
  | sys => obtain rfl := heffect; and_intros <;> trivial
  | cls | ldImm | addImm | ldReg | orReg | andReg | xorReg | ldVxDT | rnd =>
    obtain ⟨_, rfl⟩ := heffect; and_intros <;> trivial
  | ldI | addI | ldF | ldVxK | ldDTVx | ldSTVx => obtain ⟨_, rfl⟩ := heffect; and_intros <;> trivial
  | addReg | subReg | shr | subnReg | shl => obtain ⟨_, _, rfl⟩ := heffect; and_intros <;> trivial
  | jp | jpV0 | call => obtain ⟨_, -, rfl⟩ := heffect; and_intros <;> trivial
  | seImm | sneImm | seReg | sneReg => obtain rfl | rfl := heffect <;> and_intros <;> trivial
  | ret => obtain ⟨_, _, -, rfl⟩ | rfl := heffect <;> and_intros <;> simp
  | skp | sknp => obtain rfl | rfl | rfl := heffect <;> and_intros <;> simp
  | drw => obtain ⟨_, _, rfl⟩ | ⟨_, _, rfl⟩ := heffect <;> and_intros <;> simp [*]
  | ldB | storeRegs => obtain ⟨_, rfl | ⟨_, _, rfl⟩⟩ := heffect <;> and_intros <;> simp [*]
  | loadRegs => obtain ⟨-, _, rfl | ⟨_, _, rfl⟩⟩ := heffect <;> and_intros <;> simp [*]

/-- A run of stores leaves memory canonical and every byte outside its addresses as it was. -/
theorem storeBytes_memory {s t : State} (hwf : s.memWf = true) {bs : List Byte} {n : Nat} (hlen : bs.length = n + 1)
    (h : storeBytes s s.I.toNat bs = .next t) :
    t.memWf = true ∧ ∀ a, ¬ (s.dataAddr 0 ≤ a ∧ a ≤ s.dataAddr n) → t.byteAt a = s.byteAt a := by
  obtain ⟨u, hu, hwf', hreads, -⟩ := storeBytes_answers hwf s.I.toNat (List.ne_nil_of_length_eq_add_one hlen)
  obtain rfl : t = u := eq_of_next h hu
  simp only [State.dataAddr]
  exact ⟨hwf', fun a ha => by rw [hreads, dif_neg (by omega)]⟩

/-- Memory stays canonical, and a byte the instruction may not store to stays as it was. -/
theorem exec_memory {i : Instr} {s t : State} (hwf : s.memWf = true) (h : exec i s = .next t) :
    t.memWf = true ∧ ∀ a, ¬ mayStore s a i → t.byteAt a = s.byteAt a := by
  have hparams : t.params = s.params := by rw [exec_frame h]
  have hsame : t.mem = s.mem → t.memWf = true ∧ ∀ a, ¬ mayStore s a i → t.byteAt a = s.byteAt a := fun hmem =>
    ⟨by rwa [State.memWf, hmem, hparams], fun a _ => by rw [State.byteAt, hmem, hparams, State.byteAt]⟩
  obtain ⟨-, -, -, -, -, -, -, hmem, -⟩ := exec_unlisted h
  cases i with
  | ldB x => exact storeBytes_memory hwf (n := 2) rfl h
  | storeRegs x => exact storeBytes_memory hwf (regValues_length s x) h
  | _ => exact hsame hmem

/-- Settles O58: only the two runs of stores write memory, at their own addresses. -/
theorem bytesWrittenAsAddressed : Obligations.BytesWrittenAsAddressed := fun _ _ _ a hwf h hstore =>
  (exec_memory hwf h).2 a hstore

/-- Settles O59, by the first seven clauses of `Unlisted`. -/
theorem unlistedStateIsUnchanged : Obligations.UnlistedStateIsUnchanged := by
  intro i s t h
  obtain ⟨hPix, hI, hDT, hST, hstack, hwait, henv, -⟩ := exec_unlisted h
  exact ⟨hPix, hI, hDT, hST, hstack, hwait, henv⟩

/-- Settles O60: `exec_frame` for the fields no instruction writes, the last clause of `Unlisted` for the run state. -/
theorem controlStateIsNotTheProgrammers : Obligations.ControlStateIsNotTheProgrammers := by
  intro i s t h
  obtain ⟨-, -, -, -, -, -, -, -, hrs⟩ := exec_unlisted h
  have hframe := exec_frame h
  generalize t.rs = r at hrs hframe
  rw [hframe]
  exact ⟨rfl, rfl, rfl, rfl, rfl, rfl, rfl, rfl, rfl, hrs⟩

end Sys2Proof.Machine
end

section
/-! PROOFS. Counting a step: the timer tick and the presentation of a frame end (spec/40_execution_cycle.md R101, R112,
R118). -/
namespace Sys2Proof.Machine

/-- Only the tick of a frame end in RUN, not paused, changes a timer. -/
theorem countStep_timers_stay {s : State}
    (h : s.paused = true ∨ s.phase + 1 < s.params.stepsPerFrame ∨ s.rs ≠ .run) :
    (countStep s).DT = s.DT ∧ (countStep s).ST = s.ST := by
  by_cases hrun : s.rs = .run
  · by_cases hend : s.params.stepsPerFrame ≤ s.phase + 1
    · have hpaused : s.paused = true := by
        rcases h with hpaused | hin | hout
        · exact hpaused
        · exact absurd hend (by omega)
        · exact absurd hrun hout
      rw [countStep_ends hrun hend, endFrame_paused hpaused]
      exact ⟨rfl, rfl⟩
    · rw [countStep_within hrun (by omega)]
      exact ⟨rfl, rfl⟩
  · rw [countStep_notRun hrun]
    exact ⟨rfl, rfl⟩

theorem countStep_timers_tick {s : State} (hrun : s.rs = .run) (hend : s.params.stepsPerFrame ≤ s.phase + 1)
    (hpaused : s.paused = false) :
    (countStep s).DT.toNat = s.DT.toNat - 1 ∧ (countStep s).ST.toNat = s.ST.toNat - 1 := by
  rw [countStep_ends hrun hend, endFrame_ticks hpaused]
  exact ⟨countDown_toNat s.DT, countDown_toNat s.ST⟩

/-- Counting a step never makes the delay timer larger. -/
theorem countStep_DT_le (s : State) : (countStep s).DT.toNat ≤ s.DT.toNat := by
  by_cases htick : s.rs = .run ∧ s.params.stepsPerFrame ≤ s.phase + 1 ∧ s.paused = false
  · obtain ⟨hrun, hend, hpaused⟩ := htick
    rw [(countStep_timers_tick hrun hend hpaused).1]
    exact Nat.sub_le _ _
  · have hstay : s.paused = true ∨ s.phase + 1 < s.params.stepsPerFrame ∨ s.rs ≠ .run := by
      by_contra hc
      rw [not_or, not_or, not_not, Bool.not_eq_true, not_lt] at hc
      exact htick ⟨hc.2.2, hc.2.1, hc.1⟩
    rw [(countStep_timers_stay hstay).1]

theorem endFrame_phase_out (s : State) :
    (endFrame s).phase = 0 ∧
      (endFrame s).out = { frames := s.out.frames + 1, shown := some { frame := s.out.frames, view := s.view } } := by
  cases hp : s.paused with
  | true => rw [endFrame_paused hp]; exact ⟨rfl, rfl⟩
  | false => rw [endFrame_ticks hp]; exact ⟨rfl, rfl⟩

/-- At a frame end the presentation shows what `view` selects, whether the timers tick or not. -/
theorem countStep_out_of_end {s : State} (hrun : s.rs = .run) (hend : s.params.stepsPerFrame ≤ s.phase + 1) :
    (countStep s).out = { frames := s.out.frames + 1, shown := some { frame := s.out.frames, view := s.view } } := by
  rw [countStep_ends hrun hend, (endFrame_phase_out s).2]

theorem countStep_out_stays {s : State} (h : s.phase + 1 < s.params.stepsPerFrame ∨ s.rs ≠ .run) :
    (countStep s).out = s.out := by
  by_cases hrun : s.rs = .run
  · rw [countStep_within hrun (h.resolve_right (· hrun))]
  · rw [countStep_notRun hrun]

theorem countStep_phase {s : State} (hrun : s.rs = .run) :
    (countStep s).phase = if s.params.stepsPerFrame ≤ s.phase + 1 then 0 else s.phase + 1 := by
  by_cases hend : s.params.stepsPerFrame ≤ s.phase + 1
  · rw [if_pos hend, countStep_ends hrun hend, (endFrame_phase_out s).1]
  · rw [if_neg hend, countStep_within hrun (by omega)]

theorem view_of_toggle {s : State} (h : s.kbToggle = true) : s.view = .keymap := if_pos h

theorem view_of_no_toggle {s : State} (h : s.kbToggle = false) : s.view = .picture s.Pix := if_neg (by simp [h])

/-- Settles O22: a frame end in RUN, not paused, ticks by `countDown`; nothing else does. -/
theorem timersTickOncePerFrame : Obligations.TimersTickOncePerFrame := fun _ =>
  ⟨countStep_timers_tick, countStep_timers_stay⟩

/-- Settles O23, with the two cases of `view`. -/
theorem frameEndPresents : Obligations.FrameEndPresents := fun _ =>
  ⟨fun hrun hend => ⟨countStep_out_of_end hrun hend, view_of_toggle, view_of_no_toggle⟩, countStep_out_stays⟩

end Sys2Proof.Machine
end

section
/-! PROOFS. A step that fetches, and the environment's part of a step (spec/40_execution_cycle.md R102, R107, R108;
spec/60_exceptions.md R264, R268). -/
namespace Sys2Proof.Machine
open Sys2Proof.Claims

/-! ## Steps c to e of R102, in their order -/

theorem controlStep_of_toggle (wasWaiting : Bool) {s : State} (hquit : s.kbQuit = false) (htoggle : s.kbToggle = true) :
    controlStep wasWaiting s = .next (s.setPaused true) := by
  simp [controlStep, hquit, htoggle]

theorem controlStep_of_waiting {s : State} (hquit : s.kbQuit = false) (htoggle : s.kbToggle = false) :
    controlStep true s = .next (s.setPaused false) := by
  simp [controlStep, hquit, htoggle]

theorem controlStep_of_fetching {s : State} (hquit : s.kbQuit = false) (htoggle : s.kbToggle = false) :
    controlStep false s = fetchExecute (s.setPaused false) := by
  simp [controlStep, hquit, htoggle]

theorem step_of_fetches {s : State} (h : Fetches s) : step s = finishStep (fetchExecute (ready s)) := by
  obtain ⟨hrun, hwait, hconn, hquit, htoggle⟩ := h
  rw [step_of_usable_port hrun (Or.inl hconn), hwait]
  exact congrArg finishStep (controlStep_of_fetching hquit htoggle)

/-! ## The state in which the fetch begins -/

theorem ready_frame {s : State} (h : Fetches s) :
    ready s = { s with lastPress := (ready s).lastPress, kbQuit := false, kbToggle := false, Q := (ready s).Q,
                       env := (ready s).env, paused := false } := by
  obtain ⟨-, hwait, -, hquit, htoggle⟩ := h
  have hV := polled_V_of_no_wait hwait
  have hwait' : (pollInput (takeInput s)).wait = s.wait := by
    rw [hwait, pollInput_wait_none ((takeInput_wait s).trans hwait)]
  have hframe := polled_frame s
  rw [hV, hwait', hquit, htoggle] at hframe
  simp only [ready]
  generalize pollInput (takeInput s) = p at hframe ⊢
  rw [hframe]
  rfl

@[simp] theorem ready_pc (s : State) : (ready s).pc = s.pc := by rw [ready, polled_frame]; rfl

@[simp] theorem ready_byteAt (s : State) (a : Nat) : (ready s).byteAt a = s.byteAt a := polled_byteAt s a

/-! ## Step e -/

theorem fetchExecute_of_decoded {s : State} {i : Instr} (hpc : s.pc.toNat + 1 < 4096)
    (hi : decodeWord (opcodeOf (s.byteAt s.pc.toNat) (s.byteAt (s.pc.toNat + 1))) = some i) :
    fetchExecute s = exec i s.advancePc := by
  simp only [fetchExecute, fetch_ok hpc, executeWord, hi]

theorem fetchExecute_of_illegal {s : State} {op : Word} (hop : fetch s = .ok op) (hill : decodeWord op = none) :
    fetchExecute s = .next { s with pc := s.pc + 2, rs := .fault .unknownOpcode op.toNat } := by
  simp only [fetchExecute, hop, executeWord_of_illegal hill]
  rfl

theorem fetchExecute_of_outOfRange {s : State} (hpc : 4096 ≤ s.pc.toNat + 1) :
    fetchExecute s = .next { s with rs := .fault .memBounds (max s.pc.toNat 4096) } := by
  simp only [fetchExecute, fetch_error hpc]
  rfl

/-- A fault ends the step at once: it is not counted (R101, R122). -/
theorem finishStep_of_fault {s : State} {c : FaultCause} {n : Nat} (h : s.rs = .fault c n) :
    finishStep (.next s) = .next s := by
  rw [finishStep, countStep_notRun (by simp [h])]

/-- Settles O13: the two bytes decode to i in the ready state as in s, `exec` answers, and counting changes the phase, the
timers and the output only. -/
theorem stepRunsDecodedInstruction : Obligations.StepRunsDecodedInstruction := by
  intro s i hf hpc hdecode
  have hi : decodeWord (opcodeOf (s.byteAt s.pc.toNat) (s.byteAt (s.pc.toNat + 1))) = some i := by
    obtain ⟨op, hop, hbytes⟩ := decode_eq_ok hdecode
    rw [List.append_nil, wordBytes, List.cons.injEq, List.cons.injEq] at hbytes
    rw [hbytes.1, hbytes.2.1, opcodeOf_bytes, hop]
  have hexec : fetchExecute (ready s) = exec i ((ready s).setPc (s.pc + 2)) := by
    rw [fetchExecute_of_decoded (by rwa [ready_pc]) (by simpa using hi), advancePc_eq, ready_pc]
  obtain ⟨t, ht⟩ := exec_answers i ((ready s).setPc (s.pc + 2))
  exact ⟨t, countStep t, ht, by rw [step_of_fetches hf, hexec, ht, finishStep], rfl, ready_frame hf, countStep_frame t⟩

/-- Settles O14: the word fetched in the ready state is the one at `pc`. -/
theorem unknownOpcodeLatches : Obligations.UnknownOpcodeLatches := by
  intro s op hf hpc hop hill
  have hop' : fetch (ready s) = .ok op := by
    rw [← hop, fetch_ok hpc, fetch_ok (by rwa [ready_pc]), ready_pc, ready_byteAt, ready_byteAt]
  rw [step_of_fetches hf, fetchExecute_of_illegal hop' hill, finishStep_of_fault rfl, ready_pc]

/-- Settles O15: `fetch_error` names the first address out of range. -/
theorem fetchOutOfRangeLatches : Obligations.FetchOutOfRangeLatches := by
  intro s hf hpc
  have haddr : max (ready s).pc.toNat 4096 = if s.pc.toNat = 4095 then 4096 else s.pc.toNat := by
    rw [ready_pc]
    split <;> omega
  rw [step_of_fetches hf, fetchExecute_of_outOfRange (by rw [ready_pc]; omega), finishStep_of_fault rfl, haddr]

/-! ## The environment's part -/

theorem takeInput_of_no_input {s : State} (h : s.env.inputs = []) : takeInput s = s := by
  simp only [takeInput, h]

theorem takeInput_of_input {s : State} {e : StepInput} {es : List StepInput} (h : s.env.inputs = e :: es) :
    takeInput s = { s with
      Q := s.Q ++ e.arrivals
      env := { s.env with inputs := es, now := s.env.now + e.elapsed, disconnected := e.disconnected } } := by
  simp only [takeInput, h]

theorem now_le_takeInput_now (s : State) : s.env.now ≤ (takeInput s).env.now := by
  cases h : s.env.inputs with
  | nil => rw [takeInput_of_no_input h]
  | cons e es => rw [takeInput_of_input h]; exact Nat.le_add_right _ _

/-- The random bytes and the count of draws are not the environment's to change before a step. -/
theorem takeInput_draws (s : State) : (takeInput s).env.draws = s.env.draws := by
  cases h : s.env.inputs with
  | nil => rw [takeInput_of_no_input h]
  | cons e es => rw [takeInput_of_input h]

theorem step_of_lost_port {s : State} (hrun : s.rs = .run) (hlost : (takeInput s).env.disconnected = true)
    (hquit : s.kbQuit = false) : step s = .next { takeInput s with rs := .fault .inputChannelLost 0 } := by
  have hengine : engineStep (takeInput s) = .next { takeInput s with rs := .fault .inputChannelLost 0 } :=
    if_pos (by simp [hlost, hquit])
  simp only [step, hrun, runStep, hengine]
  exact finishStep_of_fault rfl

/-- Settles O16: the two cases of `takeInput`, and the connection test before the poll. -/
theorem lostChannelLatches : Obligations.LostChannelLatches := fun s =>
  ⟨takeInput_of_no_input, fun _ _ => takeInput_of_input, now_le_takeInput_now s, step_of_lost_port⟩

end Sys2Proof.Machine
end

section
/-! PROOFS. What counting a step, and the environment's part with the poll, leave of each field. -/
namespace Sys2Proof.Machine

/-! ## countStep -/

@[simp] theorem countStep_V (s : State) : (countStep s).V = s.V := by rw [countStep_frame]
@[simp] theorem countStep_I (s : State) : (countStep s).I = s.I := by rw [countStep_frame]
@[simp] theorem countStep_pc (s : State) : (countStep s).pc = s.pc := by rw [countStep_frame]
@[simp] theorem countStep_stack (s : State) : (countStep s).stack = s.stack := by rw [countStep_frame]
@[simp] theorem countStep_mem (s : State) : (countStep s).mem = s.mem := by rw [countStep_frame]
@[simp] theorem countStep_Pix (s : State) : (countStep s).Pix = s.Pix := by rw [countStep_frame]
@[simp] theorem countStep_lastPress (s : State) : (countStep s).lastPress = s.lastPress := by rw [countStep_frame]
@[simp] theorem countStep_kbQuit (s : State) : (countStep s).kbQuit = s.kbQuit := by rw [countStep_frame]
@[simp] theorem countStep_kbToggle (s : State) : (countStep s).kbToggle = s.kbToggle := by rw [countStep_frame]
@[simp] theorem countStep_Q (s : State) : (countStep s).Q = s.Q := by rw [countStep_frame]
@[simp] theorem countStep_wait (s : State) : (countStep s).wait = s.wait := by rw [countStep_frame]
@[simp] theorem countStep_paused (s : State) : (countStep s).paused = s.paused := by rw [countStep_frame]
@[simp] theorem countStep_rs (s : State) : (countStep s).rs = s.rs := by rw [countStep_frame]
@[simp] theorem countStep_params (s : State) : (countStep s).params = s.params := by rw [countStep_frame]

/-! ## The polled state -/

@[simp] theorem polled_I (s : State) : (pollInput (takeInput s)).I = s.I := by rw [polled_frame]
@[simp] theorem polled_pc (s : State) : (pollInput (takeInput s)).pc = s.pc := by rw [polled_frame]
@[simp] theorem polled_stack (s : State) : (pollInput (takeInput s)).stack = s.stack := by rw [polled_frame]
@[simp] theorem polled_mem (s : State) : (pollInput (takeInput s)).mem = s.mem := by rw [polled_frame]
@[simp] theorem polled_DT (s : State) : (pollInput (takeInput s)).DT = s.DT := by rw [polled_frame]
@[simp] theorem polled_ST (s : State) : (pollInput (takeInput s)).ST = s.ST := by rw [polled_frame]
@[simp] theorem polled_Pix (s : State) : (pollInput (takeInput s)).Pix = s.Pix := by rw [polled_frame]
@[simp] theorem polled_phase (s : State) : (pollInput (takeInput s)).phase = s.phase := by rw [polled_frame]
@[simp] theorem polled_params (s : State) : (pollInput (takeInput s)).params = s.params := by rw [polled_frame]
@[simp] theorem polled_out (s : State) : (pollInput (takeInput s)).out = s.out := by rw [polled_frame]

/-- A drain that has seen no quit leaves the queue empty (R223). -/
theorem polled_Q_of_no_wait {s : State} (hwait : s.wait = none) (hquit : (pollInput (takeInput s)).kbQuit = false) :
    (pollInput (takeInput s)).Q = [] := by
  rw [pollInput_of_no_wait ((takeInput_wait s).trans hwait)] at hquit ⊢
  exact drainFrom_empties _ _ hquit

end Sys2Proof.Machine
end

section
/-! PROOFS. The steps that execute nothing, paused or waiting (spec/40_execution_cycle.md R103, R106, R110), and that a step
in RUN always completes. -/
namespace Sys2Proof.Machine
open Sys2Proof.Claims

theorem fetchExecute_answers (s : State) : ∃ u, fetchExecute s = .next u := by
  rcases fetchExecute_cases s with ⟨-, hfault⟩ | ⟨-, ⟨-, hfault⟩ | ⟨i, -, hexec⟩⟩
  · exact ⟨_, hfault⟩
  · exact ⟨_, hfault⟩
  · rw [hexec]
    exact exec_answers i _

theorem controlStep_answers (wasWaiting : Bool) (s : State) : ∃ u, controlStep wasWaiting s = .next u := by
  cases hquit : s.kbQuit with
  | true => exact ⟨_, controlStep_of_quit wasWaiting hquit⟩
  | false =>
    cases htoggle : s.kbToggle with
    | true => exact ⟨_, controlStep_of_toggle wasWaiting hquit htoggle⟩
    | false =>
      cases wasWaiting with
      | true => exact ⟨_, controlStep_of_waiting hquit htoggle⟩
      | false =>
        rw [controlStep_of_fetching hquit htoggle]
        exact fetchExecute_answers _

/-- Settles O11: each of steps a to e of R102 answers, and counting answers too. -/
theorem runningMachineAlwaysSteps : Obligations.RunningMachineAlwaysSteps := by
  intro s hrun
  by_cases hlost : (takeInput s).env.disconnected = true ∧ s.kbQuit = false
  · exact ⟨_, step_of_lost_port hrun hlost.1 hlost.2⟩
  · have hport : (takeInput s).env.disconnected = false ∨ s.kbQuit = true := by
      rwa [not_and_or, Bool.not_eq_true, Bool.not_eq_false] at hlost
    obtain ⟨u, hu⟩ := controlStep_answers s.wait.isSome (pollInput (takeInput s))
    exact ⟨countStep u, by rw [step_of_usable_port hrun hport, hu, finishStep]⟩

theorem step_of_toggle {s : State} (hrun : s.rs = .run) (hconn : (takeInput s).env.disconnected = false)
    (hquit : (pollInput (takeInput s)).kbQuit = false) (htoggle : (pollInput (takeInput s)).kbToggle = true) :
    step s = .next (countStep ((pollInput (takeInput s)).setPaused true)) := by
  rw [step_of_usable_port hrun (Or.inl hconn), controlStep_of_toggle _ hquit htoggle, finishStep]

theorem step_of_waiting {s : State} (hrun : s.rs = .run) (hwait : s.wait.isSome = true)
    (hconn : (takeInput s).env.disconnected = false) (hquit : (pollInput (takeInput s)).kbQuit = false)
    (htoggle : (pollInput (takeInput s)).kbToggle = false) :
    step s = .next (countStep ((pollInput (takeInput s)).setPaused false)) := by
  rw [step_of_usable_port hrun (Or.inl hconn), hwait, controlStep_of_waiting hquit htoggle, finishStep]

/-- The meaning of an instruction keeps the paused mark, so a step that fetches ends with it clear (R106). -/
theorem fetchExecute_paused {s u : State} (h : fetchExecute s = .next u) : u.paused = s.paused := by
  rcases fetchExecute_cases s with ⟨-, hfault⟩ | ⟨-, ⟨-, hfault⟩ | ⟨i, -, hexec⟩⟩
  · cases h.symm.trans hfault; rfl
  · cases h.symm.trans hfault; rfl
  · rw [exec_frame (hexec.symm.trans h)]
    rfl

/-- Settles O18: with the toggle set the step answers the polled state, marked paused and counted; with it clear the mark is
cleared before the wait or the fetch, and nothing sets it again. -/
theorem toggleGatesExecution : Obligations.ToggleGatesExecution := by
  intro s hrun hconn hquit
  refine ⟨fun htoggle => ?_, fun htoggle => ?_⟩
  · refine ⟨_, step_of_toggle hrun hconn hquit htoggle, ?_⟩
    have hrs : ((pollInput (takeInput s)).setPaused true).rs = .run := (polled_rs s).trans hrun
    obtain ⟨hDT, hST⟩ := countStep_timers_stay (s := (pollInput (takeInput s)).setPaused true) (Or.inl rfl)
    have hview := view_of_toggle (s := (pollInput (takeInput s)).setPaused true) htoggle
    refine ⟨by simp, by simpa using hrs, by simp, by simp, by simp, by simp, by simp, by simpa using hDT,
      by simpa using hST,
      fun hwait => ⟨by simpa using polled_V_of_no_wait hwait, by simpa using polled_Q_of_no_wait hwait hquit⟩,
      by simp, by simp, by simp, by simp, fun hin => ⟨?_, ?_⟩, fun hend => ⟨?_, ?_⟩⟩
    · rw [countStep_phase hrs, if_neg (by simpa using hin)]; simp
    · rw [countStep_out_stays (Or.inl (by simpa using hin))]; simp
    · rw [countStep_phase hrs, if_pos (by simpa using hend)]
    · rw [countStep_out_of_end hrs (by simpa using hend), hview]; simp
  · cases hwait : s.wait with
    | some w => exact ⟨_, step_of_waiting hrun (by rw [hwait]; rfl) hconn hquit htoggle, countStep_paused _⟩
    | none =>
      obtain ⟨u, hu⟩ := fetchExecute_answers (ready s)
      refine ⟨countStep u, ?_, (countStep_paused u).trans (fetchExecute_paused hu)⟩
      rw [step_of_fetches ⟨hrun, hwait, hconn, hquit, htoggle⟩, hu, finishStep]

end Sys2Proof.Machine
end

section
/-! PROOFS. A step that begins with a wait pending (spec/40_execution_cycle.md R103, R110; spec/45_keyboard_timers.md
R225). -/
namespace Sys2Proof.Machine
open Sys2Proof.Claims

/-- The attempt to resolve a wait writes no register but the request's destination. -/
theorem resolveWait_otherRegs (w : WaitRequest) (s : State) : OtherRegs w.dest s (resolveWait w s) :=
  resolveFrom_induct w s (OtherRegs w.dest s) (fun _ _ _ => rfl) (fun _ _ _ _ => rfl) (fun _ _ _ _ => rfl)
    (fun _ q => otherRegs_setReg w.dest _ { s with Q := q }) s.Q

theorem takeInput_reg (s : State) (j : RegIdx) : (takeInput s).reg j = s.reg j := by
  rw [takeInput_frame]
  rfl

theorem polled_eq_resolveWait {s : State} {w : WaitRequest} (h : s.wait = some w) :
    pollInput (takeInput s) = resolveWait w (takeInput s) :=
  pollInput_of_wait ((takeInput_wait s).trans h)

/-- What a step that waits for w leaves of s, whatever becomes of the run state, the paused mark, the count and the tick. -/
structure WaitFrame (w : WaitRequest) (s t : State) : Prop where
  pc : t.pc = s.pc
  I : t.I = s.I
  stack : t.stack = s.stack
  mem : t.mem = s.mem
  Pix : t.Pix = s.Pix
  lastPress : t.lastPress = s.lastPress
  draws : t.env.draws = s.env.draws
  wait : t.wait = some w ∨ t.wait = none
  regs : OtherRegs w.dest s t

theorem takeInput_waitFrame {s : State} {w : WaitRequest} (h : s.wait = some w) : WaitFrame w s (takeInput s) where
  pc := by rw [takeInput_frame]
  I := by rw [takeInput_frame]
  stack := by rw [takeInput_frame]
  mem := by rw [takeInput_frame]
  Pix := by rw [takeInput_frame]
  lastPress := by rw [takeInput_frame]
  draws := takeInput_draws s
  wait := Or.inl ((takeInput_wait s).trans h)
  regs j _ := takeInput_reg s j

theorem polled_waitFrame {s : State} {w : WaitRequest} (h : s.wait = some w) :
    WaitFrame w s (pollInput (takeInput s)) where
  pc := polled_pc s
  I := polled_I s
  stack := polled_stack s
  mem := polled_mem s
  Pix := polled_Pix s
  lastPress := by rw [polled_eq_resolveWait h, resolveWait_frame, takeInput_frame]
  draws := by rw [polled_eq_resolveWait h, resolveWait_frame]; exact takeInput_draws s
  wait := by
    rw [polled_eq_resolveWait h]
    exact (resolveFrom_wait w _ (takeInput s)).imp_left (·.trans ((takeInput_wait s).trans h))
  regs j hj := by
    rw [polled_eq_resolveWait h, resolveWait_otherRegs w _ j hj, takeInput_reg]

/-- Counting a step and setting the paused mark touch nothing of the frame. -/
theorem WaitFrame.counted {w : WaitRequest} {s a : State} (h : WaitFrame w s a) (p : Bool) :
    WaitFrame w s (countStep (a.setPaused p)) := by
  rw [countStep_frame]
  exact { h with }

theorem step_waitFrame {s t : State} {w : WaitRequest} (hwait : s.wait = some w) (h : step s = .next t) :
    WaitFrame w s t := by
  have hpolled := polled_waitFrame hwait
  obtain ⟨-, ⟨-, -, rfl⟩ | ⟨-, ⟨-, rfl⟩ | ⟨-, ⟨-, rfl⟩ | ⟨-, ⟨-, rfl⟩ | ⟨hnone, -⟩⟩⟩⟩⟩ := step_cases h
  · exact { takeInput_waitFrame hwait with }
  · exact { hpolled with wait := Or.inr rfl }
  · exact hpolled.counted true
  · exact hpolled.counted false
  · exact absurd (hwait.symm.trans hnone) (Option.some_ne_none w)

/-- Settles O19: `step_waitFrame` for every outcome of the step; where it completes, it is the count of the state the attempt
leaves, and a wait sets no paused mark, so a frame end ticks. -/
theorem waitingStepExecutesNothing : Obligations.WaitingStepExecutesNothing := by
  intro s w hwait
  refine ⟨fun t h => ?_, fun hrun hconn hquit htoggle => ?_⟩
  · obtain ⟨hpc, hI, hstack, hmem, hPix, hlastPress, hdraws, hwait', hregs⟩ := step_waitFrame hwait h
    exact ⟨hpc, hI, hstack, hmem, hPix, hlastPress, hdraws, hwait', hregs⟩
  · rw [← polled_eq_resolveWait hwait] at hquit htoggle ⊢
    have hstep := step_of_waiting hrun (by rw [hwait]; rfl) hconn hquit htoggle
    have hrs : ((pollInput (takeInput s)).setPaused false).rs = .run := (polled_rs s).trans hrun
    have hview := view_of_no_toggle (s := (pollInput (takeInput s)).setPaused false) htoggle
    refine ⟨_, hstep, rfl, by simp, by simp, by simp, by simpa using hrs, by simp, fun hin => ?_, fun hend => ?_⟩
    · have hin' : ((pollInput (takeInput s)).setPaused false).phase + 1 <
          ((pollInput (takeInput s)).setPaused false).params.stepsPerFrame := by simpa using hin
      rw [countStep_within hrs hin']
      simp
    · have hend' : ((pollInput (takeInput s)).setPaused false).params.stepsPerFrame ≤
          ((pollInput (takeInput s)).setPaused false).phase + 1 := by simpa using hend
      obtain ⟨hDT, hST⟩ := countStep_timers_tick hrs hend' rfl
      rw [countStep_phase hrs, if_pos hend', hDT, hST, countStep_out_of_end hrs hend', hview]
      simp

end Sys2Proof.Machine
end

section
/-! PROOFS. What a step has done when it comes to be counted, said once for all its outcomes, and what follows for the count,
the control state, faults, the delay timer and the end of a run (spec/40_execution_cycle.md R101 to R122). -/
namespace Sys2Proof.Machine
open Sys2Proof.Claims

/-! ## Sound states: memory canonical, `pc` and the return addresses in their ranges (R25, R60) -/

/-- The part of the invariant that instructions have to keep. -/
structure Sound (s : State) : Prop where
  memory : s.memWf = true
  pc : s.pc.toNat ≤ pcLimit
  stack : ∀ w ∈ s.stack, w.toNat ≤ returnLimit

theorem returnLimit_le_pcLimit : returnLimit ≤ pcLimit := by decide

/-- The advance by 2 of a `pc` that a return address bounds does not wrap (R25). -/
theorem advance_le_pcLimit {w : Word} (h : w.toNat ≤ returnLimit) : (w + 2).toNat ≤ pcLimit := by
  rw [returnLimit] at h
  rw [pcLimit, BitVec.toNat_add]
  simp
  omega

/-- Where an instruction can leave `pc` and the stack. -/
theorem exec_flow {i : Instr} {s t : State} (hpc : s.pc.toNat ≤ returnLimit) (hstack : ∀ w ∈ s.stack, w.toNat ≤ returnLimit)
    (h : exec i s = .next t) : t.pc.toNat ≤ pcLimit ∧ ∀ w ∈ t.stack, w.toNat ≤ returnLimit := by
  have hpc' : s.pc.toNat ≤ pcLimit := hpc.trans returnLimit_le_pcLimit
  have hskip := advance_le_pcLimit hpc
  have heffect := exec_effect h
  cases i with
  | sys => obtain rfl := heffect; exact ⟨hpc', hstack⟩
  | jp | jpV0 => obtain ⟨_, hw, rfl⟩ := heffect; exact ⟨hw, hstack⟩
  | call => obtain ⟨_, hw, rfl⟩ := heffect; exact ⟨hw, List.forall_mem_cons.2 ⟨hpc, hstack⟩⟩
  | ret =>
    obtain ⟨w, rest, hs, rfl⟩ | rfl := heffect
    · rw [hs, List.forall_mem_cons] at hstack
      exact ⟨hstack.1.trans returnLimit_le_pcLimit, hstack.2⟩
    · exact ⟨hpc', hstack⟩
  | seImm | sneImm | seReg | sneReg =>
    obtain rfl | rfl := heffect
    · exact ⟨hskip, hstack⟩
    · exact ⟨hpc', hstack⟩
  | skp | sknp =>
    obtain rfl | rfl | rfl := heffect
    · exact ⟨hskip, hstack⟩
    · exact ⟨hpc', hstack⟩
    · exact ⟨hpc', hstack⟩
  | cls | ldImm | addImm | ldReg | orReg | andReg | xorReg | ldVxDT | rnd =>
    obtain ⟨_, rfl⟩ := heffect; exact ⟨hpc', hstack⟩
  | ldI | addI | ldF | ldVxK | ldDTVx | ldSTVx => obtain ⟨_, rfl⟩ := heffect; exact ⟨hpc', hstack⟩
  | addReg | subReg | shr | subnReg | shl => obtain ⟨_, _, rfl⟩ := heffect; exact ⟨hpc', hstack⟩
  | drw => obtain ⟨_, _, rfl⟩ | ⟨_, -, rfl⟩ := heffect <;> exact ⟨hpc', hstack⟩
  | ldB | storeRegs => obtain ⟨_, rfl | ⟨_, -, rfl⟩⟩ := heffect <;> exact ⟨hpc', hstack⟩
  | loadRegs => obtain ⟨-, _, rfl | ⟨_, -, rfl⟩⟩ := heffect <;> exact ⟨hpc', hstack⟩

/-! ## Step e -/

/-- A fetched instruction lies below 4096, so `pc` past it is at most 0x1000 (R25, R134). -/
theorem advance_of_fetched {w : Word} (h : w.toNat + 1 < 4096) : (w + 2).toNat ≤ returnLimit := by
  rw [returnLimit, BitVec.toNat_add]
  simp
  omega

theorem fetchExecute_sound {s u : State} (hs : Sound s) (h : fetchExecute s = .next u) : Sound u := by
  obtain ⟨hwf, hpc, hstack⟩ := hs
  rcases fetchExecute_cases s with ⟨-, hfault⟩ | ⟨hfetched, ⟨-, hfault⟩ | ⟨i, -, hexec⟩⟩
  · cases h.symm.trans hfault
    exact ⟨hwf, hpc, hstack⟩
  · cases h.symm.trans hfault
    exact ⟨hwf, (advance_of_fetched hfetched).trans returnLimit_le_pcLimit, hstack⟩
  · have hexec' := hexec.symm.trans h
    obtain ⟨hpc', hstack'⟩ := exec_flow (s := s.advancePc) (advance_of_fetched hfetched) hstack hexec'
    exact ⟨(exec_memory (s := s.advancePc) hwf hexec').1, hpc', hstack'⟩

/-- Step e writes none of the engine's own state. -/
theorem fetchExecute_frame {s u : State} (h : fetchExecute s = .next u) :
    u = { s with V := u.V, I := u.I, pc := u.pc, stack := u.stack, mem := u.mem, DT := u.DT, ST := u.ST, Pix := u.Pix,
                 wait := u.wait, rs := u.rs, env := u.env } := by
  rcases fetchExecute_cases s with ⟨-, hfault⟩ | ⟨-, ⟨-, hfault⟩ | ⟨i, -, hexec⟩⟩
  · cases h.symm.trans hfault; rfl
  · cases h.symm.trans hfault; rfl
  · rw [exec_frame (hexec.symm.trans h)]
    rfl

/-- Step e keeps the run state, or latches a fault with the timers and the display as they were. -/
theorem fetchExecute_rs {s u : State} (h : fetchExecute s = .next u) :
    u.rs = s.rs ∨ ∃ c n, u.rs = .fault c n ∧ u.DT = s.DT ∧ u.ST = s.ST ∧ u.Pix = s.Pix := by
  rcases fetchExecute_cases s with ⟨-, hfault⟩ | ⟨-, ⟨-, hfault⟩ | ⟨i, -, hexec⟩⟩
  · cases h.symm.trans hfault; exact Or.inr ⟨_, _, rfl, rfl, rfl, rfl⟩
  · cases h.symm.trans hfault; exact Or.inr ⟨_, _, rfl, rfl, rfl, rfl⟩
  · rcases exec_frame_cases (hexec.symm.trans h) with hframe | ⟨c, n, hframe⟩
    · exact Or.inl (by rw [hframe]; rfl)
    · exact Or.inr ⟨c, n, by rw [hframe]; exact ⟨rfl, rfl, rfl, rfl⟩⟩

theorem exec_DT {i : Instr} {s t : State} (h : exec i s = .next t) : t.DT = s.DT ∨ ∃ x, i = .ldDTVx x := by
  obtain ⟨-, -, hDT, -⟩ := exec_unlisted h
  cases i with
  | ldDTVx x => exact Or.inr ⟨x, rfl⟩
  | _ => exact Or.inl hDT

theorem fetchExecute_DT {s u : State} (h : fetchExecute s = .next u) : u.DT = s.DT ∨
    ∃ x, decodeWord (opcodeOf (s.byteAt s.pc.toNat) (s.byteAt (s.pc.toNat + 1))) = some (.ldDTVx x) := by
  rcases fetchExecute_cases s with ⟨-, hfault⟩ | ⟨-, ⟨-, hfault⟩ | ⟨i, hi, hexec⟩⟩
  · cases h.symm.trans hfault; exact Or.inl rfl
  · cases h.symm.trans hfault; exact Or.inl rfl
  · refine (exec_DT (hexec.symm.trans h)).imp id ?_
    rintro ⟨x, rfl⟩
    exact ⟨x, hi⟩

/-! ## The state a step counts -/

/-- What a step that began in s has done in u, the state it then counts. -/
structure Worked (s u : State) : Prop where
  params : u.params = s.params
  phase : u.phase = s.phase
  out : u.out = s.out
  sound : Sound s → Sound u
  /-- R106: a step that stays in RUN leaves the paused mark as the toggle flag is. -/
  paused : u.rs = .run → u.paused = u.kbToggle
  /-- R105: the run ends exactly when the quit flag is set, and with the flag set by the poll or before. -/
  quit : u.kbQuit = true ↔ u.rs = .quit
  quitSeen : u.rs = .quit → (pollInput (takeInput s)).kbQuit = true
  noWait : u.rs = .quit → u.wait = none
  /-- R122: a step that faults has loaded no timer and drawn nothing. -/
  fault : ∀ c n, u.rs = .fault c n → u.DT = s.DT ∧ u.ST = s.ST ∧ u.Pix = s.Pix
  delay : u.DT = s.DT ∨
    ∃ x, decodeWord (opcodeOf (s.byteAt s.pc.toNat) (s.byteAt (s.pc.toNat + 1))) = some (.ldDTVx x)

theorem sound_polled {s : State} (h : Sound s) : Sound (pollInput (takeInput s)) where
  memory := by rw [State.memWf, polled_mem, polled_params]; exact h.memory
  pc := by rw [polled_pc]; exact h.pc
  stack := by rw [polled_stack]; exact h.stack

theorem worked_of_lost_port {s : State} (hquit : (takeInput s).kbQuit = false) :
    Worked s ((takeInput s).latchFault .inputChannelLost 0) := by
  rw [takeInput_kbQuit] at hquit
  rw [takeInput_frame]
  exact {
    params := rfl, phase := rfl, out := rfl
    sound := fun h => ⟨h.memory, h.pc, h.stack⟩
    paused := nofun
    quit := by simp [hquit]
    quitSeen := nofun
    noWait := nofun
    fault := fun _ _ _ => ⟨rfl, rfl, rfl⟩
    delay := Or.inl rfl }

theorem worked_of_quit {s : State} (hquit : (pollInput (takeInput s)).kbQuit = true) :
    Worked s (enterQuit (pollInput (takeInput s))) where
  params := polled_params s
  phase := polled_phase s
  out := polled_out s
  sound h := { sound_polled h with }
  paused := nofun
  quit := by simp [enterQuit, hquit]
  quitSeen _ := hquit
  noWait _ := rfl
  fault := nofun
  delay := Or.inl (polled_DT s)

/-- The steps that execute nothing, paused or waiting. -/
theorem worked_of_idle {s : State} (hrun : s.rs = .run) (hquit : (pollInput (takeInput s)).kbQuit = false) :
    Worked s ((pollInput (takeInput s)).setPaused (pollInput (takeInput s)).kbToggle) where
  params := polled_params s
  phase := polled_phase s
  out := polled_out s
  sound h := { sound_polled h with }
  paused _ := rfl
  quit := by simp [hquit, polled_rs, hrun]
  quitSeen h := by simp [polled_rs, hrun] at h
  noWait h := by simp [polled_rs, hrun] at h
  fault _ _ h := by simp [polled_rs, hrun] at h
  delay := Or.inl (polled_DT s)

theorem ready_DT (s : State) : (ready s).DT = s.DT := polled_DT s

/-- The step that fetches. -/
theorem worked_of_fetch {s u : State} (hrun : s.rs = .run) (hquit : (pollInput (takeInput s)).kbQuit = false)
    (htoggle : (pollInput (takeInput s)).kbToggle = false) (h : fetchExecute (ready s) = .next u) : Worked s u := by
  have hframe := fetchExecute_frame h
  have hrs := fetchExecute_rs h
  have hrun' : (ready s).rs = .run := (polled_rs s).trans hrun
  have hquit' : u.kbQuit = false := by rw [hframe]; exact hquit
  have hnotQuit : u.rs ≠ .quit := by
    rcases hrs with hrs | ⟨c, n, hrs, -⟩
    · rw [hrs, hrun']; nofun
    · rw [hrs]; nofun
  have hdelay := fetchExecute_DT h
  rw [ready_pc, ready_byteAt, ready_byteAt, ready_DT] at hdelay
  exact {
    params := by rw [hframe]; exact polled_params s
    phase := by rw [hframe]; exact polled_phase s
    out := by rw [hframe]; exact polled_out s
    sound := fun hs => fetchExecute_sound (s := ready s) { sound_polled hs with } h
    paused := fun _ => by rw [hframe]; exact htoggle.symm
    quit := by simp [hquit', hnotQuit]
    quitSeen := fun e => absurd e hnotQuit
    noWait := fun e => absurd e hnotQuit
    fault := fun c n e => by
      rcases hrs with hrs | ⟨_, _, -, hDT, hST, hPix⟩
      · rw [hrs, hrun'] at e; nomatch e
      · exact ⟨hDT.trans (polled_DT s), hST.trans (polled_ST s), hPix.trans (polled_Pix s)⟩
    delay := hdelay }

/-- Every step is its work and then the count, which does nothing where the work left RUN. -/
theorem step_worked {s t : State} (h : step s = .next t) : ∃ u, Worked s u ∧ t = countStep u := by
  obtain ⟨hrun, ⟨-, hquit, rfl⟩ | ⟨-, ⟨hquit, rfl⟩ | ⟨hquit, ⟨htoggle, rfl⟩ | ⟨htoggle, ⟨-, rfl⟩ | ⟨-, u, hu, rfl⟩⟩⟩⟩⟩ :=
    step_cases h
  · exact ⟨_, worked_of_lost_port hquit, (countStep_notRun (by simp)).symm⟩
  · exact ⟨_, worked_of_quit hquit, (countStep_enterQuit _).symm⟩
  · exact ⟨_, worked_of_idle hrun hquit, by rw [htoggle]⟩
  · exact ⟨_, worked_of_idle hrun hquit, by rw [htoggle]⟩
  · exact ⟨u, worked_of_fetch hrun hquit htoggle hu, rfl⟩

/-! ## What follows -/

/-- There is no step with a fault latched (R102, R261). -/
theorem step_of_fault {s : State} {c : FaultCause} {n : Nat} (h : s.rs = .fault c n) : step s = .fault (.stopped c n) := by
  simp only [step, h]

/-- A drain sees a quit only where one was seen before or lies in the queue. -/
theorem drainFrom_kbQuit : ∀ {q : List Event} {s : State}, (drainFrom q s).kbQuit = true →
    s.kbQuit = true ∨ ∃ ts, Event.quit ts ∈ q
  | [], _, h => Or.inl h
  | e :: q, s, h => by
    by_cases hs : s.kbQuit = true
    · exact Or.inl hs
    · rw [drainFrom, if_neg hs] at h
      cases e with
      | quit ts => exact Or.inr ⟨ts, List.mem_cons_self⟩
      | char | toggle =>
        rcases drainFrom_kbQuit h with hs' | ⟨ts, hts⟩
        · exact Or.inl hs'
        · exact Or.inr ⟨ts, List.mem_cons_of_mem _ hts⟩

/-- So does the attempt to resolve a wait. -/
theorem resolveFrom_kbQuit (w : WaitRequest) {s : State} : ∀ {q : List Event}, (resolveFrom w q s).kbQuit = true →
    s.kbQuit = true ∨ ∃ ts, Event.quit ts ∈ q
  | [], h => Or.inl h
  | e :: q, h => by
    by_cases hs : s.kbQuit = true
    · exact Or.inl hs
    · have hs' := Bool.eq_false_iff.2 hs
      cases e with
      | quit ts => exact Or.inr ⟨ts, List.mem_cons_self⟩
      | toggle ts =>
        rw [resolveFrom_meets_toggle w hs'] at h
        exact Or.inl h
      | char k ts =>
        by_cases hv : w.validAfter ≤ ts
        · rw [resolveFrom_accepts w hs' k hv] at h
          exact Or.inl h
        · rw [resolveFrom_discards w hs' k hv] at h
          exact (resolveFrom_kbQuit w h).imp_right fun ⟨ts', hts'⟩ => ⟨ts', List.mem_cons_of_mem _ hts'⟩

theorem pollInput_kbQuit {s : State} (h : (pollInput s).kbQuit = true) : s.kbQuit = true ∨ ∃ ts, Event.quit ts ∈ s.Q := by
  cases hwait : s.wait with
  | none => rw [pollInput_of_no_wait hwait] at h; exact drainFrom_kbQuit h
  | some w => rw [pollInput_of_wait hwait] at h; exact resolveFrom_kbQuit w h

/-- The paused mark hides a pending wait (R109, the spec's decision D11). -/
theorem control_of_paused {s : State} (h : s.paused = true) : s.control = .paused := if_pos h

theorem control_of_not_paused {s : State} (h : s.paused = false) :
    s.control = if s.wait.isSome then .waitingForKey else .running := if_neg (by simp [h])

/-- Settles O20: the paused mark is the toggle flag, so `control` reads the toggle and then the wait. -/
theorem controlStateFollowsToggleAndWait : Obligations.ControlStateFollowsToggleAndWait := by
  intro s t h hrun
  obtain ⟨u, hu, rfl⟩ := step_worked h
  have hpaused : (countStep u).paused = (countStep u).kbToggle := by
    rw [countStep_rs] at hrun
    rw [countStep_paused, countStep_kbToggle, hu.paused hrun]
  refine ⟨fun htoggle => ?_, fun htoggle hwait => ?_, fun htoggle hwait => ?_⟩
  · exact control_of_paused (hpaused.trans htoggle)
  · rw [control_of_not_paused (hpaused.trans htoggle), if_pos (Option.isSome_iff_ne_none.2 hwait)]
  · rw [control_of_not_paused (hpaused.trans htoggle), hwait]
    rfl

/-- Settles O21: the work keeps the phase, and the count adds one to it in RUN only. -/
theorem stepsAreCountedModuloN : Obligations.StepsAreCountedModuloN := by
  intro s t h
  obtain ⟨u, hu, rfl⟩ := step_worked h
  rw [countStep_rs]
  refine ⟨fun hrun => ?_, fun hout => ?_⟩
  · rw [countStep_phase hrun, hu.params, hu.phase]
  · rw [countStep_notRun hout, hu.phase]

/-- Settles O24: a state in FAULT is not counted, and what faults has drawn nothing and loaded no timer. -/
theorem faultFreezesTheMachine : Obligations.FaultFreezesTheMachine := by
  intro s t c n h hfault
  obtain ⟨u, hu, rfl⟩ := step_worked h
  rw [countStep_rs] at hfault
  have hstop : ∀ v, step u ≠ .next v := fun v hv => by
    rw [step_of_fault hfault] at hv
    nomatch hv
  obtain ⟨hDT, hST, hPix⟩ := hu.fault c n hfault
  rw [countStep_notRun (by simp [hfault])]
  exact ⟨hu.phase, hDT, hST, hu.out, hPix, hstop⟩

/-- Settles O25: the count makes no timer larger, so the work must have loaded it. -/
theorem onlyTimerLoadRaisesDelay : Obligations.OnlyTimerLoadRaisesDelay := by
  intro s t h hraised
  obtain ⟨u, hu, rfl⟩ := step_worked h
  refine hu.delay.resolve_left fun hDT => ?_
  have hle := countStep_DT_le u
  rw [hDT] at hle
  exact absurd hraised (Nat.not_lt_of_le hle)

/-- Settles O26: only a quit that the poll has seen ends the run, and it was set before or lay in the queue. -/
theorem quitComesFromQuitEvent : Obligations.QuitComesFromQuitEvent := by
  intro s t h hquit
  obtain ⟨u, hu, rfl⟩ := step_worked h
  rw [countStep_rs] at hquit
  have hseen := pollInput_kbQuit (hu.quitSeen hquit)
  rwa [takeInput_kbQuit] at hseen

end Sys2Proof.Machine
end

section
/-! PROOFS. The invariant of runs, and the LOAD port (spec/70_reset_and_hazards.md R304 to R306). -/
namespace Sys2Proof.Machine

theorem sound_of_inv {s : State} (h : s.Inv) : Sound s := ⟨h.memory, h.pc, h.stack⟩

theorem sound_countStep {s : State} (h : Sound s) : Sound (countStep s) where
  memory := by rw [State.memWf, countStep_mem, countStep_params]; exact h.memory
  pc := by rw [countStep_pc]; exact h.pc
  stack := by rw [countStep_stack]; exact h.stack

theorem countStep_phase_lt {s : State} (hsteps : 1 ≤ s.params.stepsPerFrame) (hphase : s.phase < s.params.stepsPerFrame) :
    (countStep s).phase < s.params.stepsPerFrame := by
  by_cases hrun : s.rs = .run
  · rw [countStep_phase hrun]
    split <;> omega
  · rw [countStep_notRun hrun]
    exact hphase

/-- Settles O10: the work of a step keeps sound states sound (`exec_memory`, `exec_flow`) and ties the quit flag to QUIT and
the paused mark to the toggle; the count keeps all that and returns the phase to 0 before it reaches N. -/
theorem stepKeepsInvariant : Obligations.StepKeepsInvariant := by
  intro s t hs h
  obtain ⟨u, hu, rfl⟩ := step_worked h
  obtain ⟨hmemory, hpc, hstack⟩ := sound_countStep (hu.sound (sound_of_inv hs))
  have hsteps : 1 ≤ u.params.stepsPerFrame := by rw [hu.params]; exact hs.steps
  have hphase : u.phase < u.params.stepsPerFrame := by rw [hu.params, hu.phase]; exact hs.phase
  exact {
    memory := hmemory
    steps := by rwa [countStep_params]
    phase := by rw [countStep_params]; exact countStep_phase_lt hsteps hphase
    pc := hpc
    stack := hstack
    quit := by rw [countStep_kbQuit, countStep_rs]; exact hu.quit
    noWait := by rw [countStep_rs, countStep_wait]; exact hu.noWait
    paused := by rw [countStep_rs, countStep_paused, countStep_kbToggle]; exact hu.paused }

/-- A step leaves no reset state: it ends the run, advances the phase, or presents a frame (R304, the spec's decision
D26). -/
theorem step_isReset {s t : State} (h : step s = .next t) : t.isReset = false := by
  obtain ⟨u, -, rfl⟩ := step_worked h
  refine Bool.eq_false_iff.2 fun hreset => ?_
  have hstate := isReset_iff.1 hreset
  have hrun : u.rs = .run := by rw [← countStep_rs u, hstate]; rfl
  have hphase : (countStep u).phase = 0 := by rw [hstate]; rfl
  have hframes : (countStep u).out.frames = 0 := by rw [hstate]; rfl
  rw [countStep_phase hrun] at hphase
  split at hphase
  · next hend =>
    rw [countStep_out_of_end hrun hend] at hframes
    nomatch hframes
  · nomatch hphase

theorem loadProgram_of_not_reset {s : State} (h : s.isReset = false) (p : List Byte) :
    loadProgram p s = .refused .loadOutsideReset := by
  rw [loadProgram, if_neg (by simp [h])]

theorem loadProgram_of_fitting {p : List Byte} {s : State} (hs : s.isReset = true) (hp : p.length + 512 ≤ 4096) :
    loadProgram p s = .next { s.storeAll 512 p with loaded := true } := by
  rw [loadProgram, if_pos hs, loadBase_eq, memSize_eq, if_pos hp]

theorem loadProgram_of_tooLarge {p : List Byte} {s : State} (hs : s.isReset = true) (hp : 4096 < p.length + 512) :
    loadProgram p s = .refused .loadTooLarge := by
  rw [loadProgram, if_pos hs, loadBase_eq, memSize_eq, if_neg (by omega)]

/-- A load sets the mark of a load, so what it answers is no reset state. -/
theorem loadProgram_isReset {q : List Byte} {s t : State} (h : loadProgram q s = .next t) : t.isReset = false := by
  rcases loadProgram_cases q s with ⟨-, -, hload⟩ | ⟨-, -, hrefused⟩ | ⟨-, hrefused⟩
  · rw [eq_of_next h hload]
    exact isReset_loaded rfl
  · nomatch h.symm.trans hrefused
  · nomatch h.symm.trans hrefused

/-- Settles O12: the bytes are read back from the run of stores at 0x200; a state that is no reset state refuses, after a
load by its mark and after a step by `step_isReset`. -/
theorem loadPlacesProgramOrReports : Obligations.LoadPlacesProgramOrReports := by
  intro p s
  refine ⟨fun hs => ⟨fun hp => ?_, fun hp => loadProgram_of_tooLarge (isReset_iff.2 hs) hp⟩,
    fun hs => loadProgram_of_not_reset (Bool.eq_false_iff.2 fun hreset => hs (isReset_iff.1 hreset)) p,
    fun q t h => loadProgram_of_not_reset (loadProgram_isReset h) p,
    fun t h => loadProgram_of_not_reset (step_isReset h) p⟩
  have hreset := isReset_iff.2 hs
  have hreads := fun c => byteAt_storeAll (a := 512) c p (isReset_memWf hreset) (by omega)
  refine ⟨_, loadProgram_of_fitting hreset hp, ?_, fun k hk => ?_, fun a ha => ?_⟩
  · rw [storeAll_frame]
  · refine (hreads (512 + k)).trans ?_
    rw [dif_pos (by omega)]
    simp
  · refine (hreads a).trans ?_
    rw [dif_neg (by omega)]

end Sys2Proof.Machine
end
